-- ==== Sys2Proof/Word.lean ====
section
/-! DEFINITION. The bit-vector types of the machine (`00_scope.md` R5, R7): every value is unsigned, bit 0 is the least significant bit. -/

namespace Sys2Proof

/-- A byte: a general register, a timer or a memory cell (R5 `REG_WIDTH`, `TIMER_WIDTH`). -/
abbrev Byte := BitVec 8

/-- A 16-bit value: the instruction word, `pc`, `I` or a stack entry (R5 `PC_WIDTH`, `INDEX_WIDTH`, `STACK_ENTRY_WIDTH`). -/
abbrev Word := BitVec 16

/-- The 4-bit field `n` of an instruction word (`30_encoding.md` R92). -/
abbrev Nibble := BitVec 4

/-- The 12-bit byte address `nnn` of an instruction word (R92). -/
abbrev Addr12 := BitVec 12

/-- The index of a general register, 0 to 15 (`10_state.md` R21: "named by a 4-bit register index"). -/
abbrev RegIdx := BitVec 4

/-- The index of a keypad latch, 0 to 15 (`60_exceptions.md` R243: "the type of `k` is a 4-bit index"). -/
abbrev KeyIdx := BitVec 4

end Sys2Proof
end

