-- ==== Sys2Proof/Syntax.lean ====
section
/-! DEFINITION. The instructions: one constructor per row of `spec/opcode_table.json`, in the table's order (`30_encoding.md` R96). -/

namespace Sys2Proof

/-- An instruction with its operand fields (R92, R94). Each constructor is one row of R96. -/
inductive Instr where
  /-- `00E0` clear-screen (R190). -/
  | cls
  /-- `00EE` return (R120). -/
  | ret
  /-- `0nnn` other than `00E0` and `00EE`: the legacy native-call form, which raises `UnsupportedInstruction` (R128). -/
  | sys (nnn : Addr12)
  /-- `1nnn` jump (R121). -/
  | jp (nnn : Addr12)
  /-- `2nnn` call (R122). -/
  | call (nnn : Addr12)
  /-- `3xkk` skip-if-equal-immediate (R123). -/
  | seImm (x : RegIdx) (kk : Byte)
  /-- `4xkk` skip-if-not-equal-immediate (R124). -/
  | sneImm (x : RegIdx) (kk : Byte)
  /-- `5xy0` skip-if-registers-equal (R125). -/
  | seReg (x y : RegIdx)
  /-- `6xkk` load-immediate (R140). -/
  | ldImm (x : RegIdx) (kk : Byte)
  /-- `7xkk` add-immediate (R141). -/
  | addImm (x : RegIdx) (kk : Byte)
  /-- `8xy0` register-to-register move (R142). -/
  | ldReg (x y : RegIdx)
  /-- `8xy1` OR (R143). -/
  | orReg (x y : RegIdx)
  /-- `8xy2` AND (R144). -/
  | andReg (x y : RegIdx)
  /-- `8xy3` XOR (R145). -/
  | xorReg (x y : RegIdx)
  /-- `8xy4` add-registers (R148). -/
  | addReg (x y : RegIdx)
  /-- `8xy5` subtract, x − y (R149). -/
  | subReg (x y : RegIdx)
  /-- `8xy6` shift-right (R150). `y` is the ignored field of R98, kept so that the word can be written back. -/
  | shr (x y : RegIdx)
  /-- `8xy7` subtract-reverse, y − x (R151). -/
  | subnReg (x y : RegIdx)
  /-- `8xyE` shift-left (R152). `y` is the ignored field of R98, kept so that the word can be written back. -/
  | shl (x y : RegIdx)
  /-- `9xy0` skip-if-registers-not-equal (R126). -/
  | sneReg (x y : RegIdx)
  /-- `Annn` load-index (R170). -/
  | ldI (nnn : Addr12)
  /-- `Bnnn` jump-with-offset (R127). -/
  | jpV0 (nnn : Addr12)
  /-- `Cxkk` random (R158). -/
  | rnd (x : RegIdx) (kk : Byte)
  /-- `Dxyn` draw-sprite (R192). -/
  | drw (x y : RegIdx) (n : Nibble)
  /-- `Ex9E` skip-if-key-pressed (R200). -/
  | skp (x : RegIdx)
  /-- `ExA1` skip-if-key-not-pressed (R201). -/
  | sknp (x : RegIdx)
  /-- `Fx07` read-delay-timer (R205). -/
  | ldVxDT (x : RegIdx)
  /-- `Fx0A` wait-for-key (R203, R204). -/
  | ldVxK (x : RegIdx)
  /-- `Fx15` set-delay-timer (R206). -/
  | ldDTVx (x : RegIdx)
  /-- `Fx18` set-sound-timer (R207). -/
  | ldSTVx (x : RegIdx)
  /-- `Fx1E` add-to-index (R171). -/
  | addIVx (x : RegIdx)
  /-- `Fx29` font-address (R172). -/
  | ldFVx (x : RegIdx)
  /-- `Fx33` store-bcd (R173). -/
  | ldBVx (x : RegIdx)
  /-- `Fx55` store-registers (R174). -/
  | storeRegs (x : RegIdx)
  /-- `Fx65` load-registers (R175). -/
  | loadRegs (x : RegIdx)
  deriving DecidableEq, Repr

/-- The instruction's mnemonic, spelled as `spec/opcode_table.json` spells it (R99). -/
def Instr.mnemonic : Instr → String
  | .cls => "CLS"
  | .ret => "RET"
  | .sys _ => "SYS_nnn"
  | .jp _ => "JP_nnn"
  | .call _ => "CALL_nnn"
  | .seImm _ _ => "SE_Vx__kk"
  | .sneImm _ _ => "SNE_Vx__kk"
  | .seReg _ _ => "SE_Vx__Vy"
  | .ldImm _ _ => "LD_Vx__kk"
  | .addImm _ _ => "ADD_Vx__kk"
  | .ldReg _ _ => "LD_Vx__Vy"
  | .orReg _ _ => "OR_Vx__Vy"
  | .andReg _ _ => "AND_Vx__Vy"
  | .xorReg _ _ => "XOR_Vx__Vy"
  | .addReg _ _ => "ADD_Vx__Vy"
  | .subReg _ _ => "SUB_Vx__Vy"
  | .shr _ _ => "SHR_Vx"
  | .subnReg _ _ => "SUBN_Vx__Vy"
  | .shl _ _ => "SHL_Vx"
  | .sneReg _ _ => "SNE_Vx__Vy"
  | .ldI _ => "LD_I__nnn"
  | .jpV0 _ => "JP_V0__nnn"
  | .rnd _ _ => "RND_Vx__kk"
  | .drw _ _ _ => "DRW_Vx__Vy__n"
  | .skp _ => "SKP_Vx"
  | .sknp _ => "SKNP_Vx"
  | .ldVxDT _ => "LD_Vx__DT"
  | .ldVxK _ => "LD_Vx__K"
  | .ldDTVx _ => "LD_DT__Vx"
  | .ldSTVx _ => "LD_ST__Vx"
  | .addIVx _ => "ADD_I__Vx"
  | .ldFVx _ => "LD_F__Vx"
  | .ldBVx _ => "LD_B__Vx"
  | .storeRegs _ => "LD__I___Vx"
  | .loadRegs _ => "LD_Vx___I"

end Sys2Proof
end

