-- ==== Sys2Proof/WellFormed.lean ====
section
/-! DEFINITION. Which instruction terms an instruction word can stand for (`30_encoding.md` R96). Field widths are checked by the types; the one check left is that row 3 (`0nnn`) is not one of rows 1 and 2. -/

namespace Sys2Proof

/-- The `nnn` values of `0nnn` that are other instructions: `00E0` and `00EE` (R96: "Row 3 is matched only after rows 1 and 2 have failed"). -/
def takenByFixedRows (nnn : Addr12) : Bool := nnn == 0x0E0 || nnn == 0x0EE

/-- The check of an instruction term: one arm per constructor. -/
def Instr.wellFormed : Instr → Bool
  | .sys nnn => !takenByFixedRows nnn
  | .cls | .ret | .jp _ | .call _ | .seImm _ _ | .sneImm _ _ | .seReg _ _ | .ldImm _ _ | .addImm _ _
  | .ldReg _ _ | .orReg _ _ | .andReg _ _ | .xorReg _ _ | .addReg _ _ | .subReg _ _ | .shr _ _
  | .subnReg _ _ | .shl _ _ | .sneReg _ _ | .ldI _ | .jpV0 _ | .rnd _ _ | .drw _ _ _ | .skp _ | .sknp _
  | .ldVxDT _ | .ldVxK _ | .ldDTVx _ | .ldSTVx _ | .addIVx _ | .ldFVx _ | .ldBVx _ | .storeRegs _
  | .loadRegs _ => true

end Sys2Proof
end

