-- ==== Sys2Proof/Config.lean ====
section
/-! DEFINITION. The implementation parameters of `00_scope.md` R5 at the values R5 takes, each under its own name, and the free value of the random source (`10_state.md` R37). -/

namespace Sys2Proof.Config

/-- `NREGS`, the number of general registers (R5). -/
abbrev nregs : Nat := 16

/-- `FLAG_REG`, the index of the flag register `VF` (R5, R22). -/
abbrev flagReg : RegIdx := 0xF

/-- `INSTR_BYTES`, the length of every instruction (R5, R91). -/
abbrev instrBytes : Nat := 2

/-- `NKEYS`, the number of keypad latches (R5, R29). -/
abbrev nkeys : Nat := 16

/-- `MEM_SIZE`, the memory size in bytes (R5, D1). UNVERIFIED value, log 7. -/
abbrev memSize : Nat := 4096

/-- `PROG_START`, where the program image is loaded and where `pc` starts (R5, D2). UNVERIFIED value, log 7. -/
abbrev progStart : Nat := 0x200

/-- `INTERP_REGION_SIZE`, the size of the reserved interpreter/font region (R5, D2). UNVERIFIED value, log 7. -/
abbrev interpRegionSize : Nat := 0x200

/-- `FONT_BASE`, the address of the first font byte (R5, D3). UNVERIFIED value, log 7. -/
abbrev fontBase : Nat := 0x000

/-- `GLYPH_BYTES`, the bytes per glyph (R5, D3). UNVERIFIED value, log 7. -/
abbrev glyphBytes : Nat := 5

/-- `DISPLAY_WIDTH`, the columns of the grid (R5, D4). UNVERIFIED value, log 7. -/
abbrev displayWidth : Nat := 64

/-- `DISPLAY_HEIGHT`, the rows of the grid (R5, D4). UNVERIFIED value, log 7. -/
abbrev displayHeight : Nat := 32

/-- `SPRITE_WIDTH`, the pixels of a sprite row (R5, R191). -/
abbrev spriteWidth : Nat := 8

/-- `STACK_CAPACITY`, the number of stack entries (R5, D5). UNVERIFIED value, log 7. -/
abbrev stackCapacity : Nat := 16

/-- `FONT_DATA`, the 16 glyphs of 5 bytes each (`10_state.md` R31, D3). UNVERIFIED values, log 7. -/
def fontData : List Byte :=
  [0xF0, 0x90, 0x90, 0x90, 0xF0] ++ [0x20, 0x60, 0x20, 0x20, 0x70] ++
  [0xF0, 0x10, 0xF0, 0x80, 0xF0] ++ [0xF0, 0x10, 0xF0, 0x10, 0xF0] ++
  [0x90, 0x90, 0xF0, 0x10, 0x10] ++ [0xF0, 0x80, 0xF0, 0x10, 0xF0] ++
  [0xF0, 0x80, 0xF0, 0x90, 0xF0] ++ [0xF0, 0x10, 0x20, 0x40, 0x40] ++
  [0xF0, 0x90, 0xF0, 0x90, 0xF0] ++ [0xF0, 0x90, 0xF0, 0x10, 0xF0] ++
  [0xF0, 0x90, 0xF0, 0x90, 0x90] ++ [0xE0, 0x90, 0xE0, 0x90, 0xE0] ++
  [0xF0, 0x80, 0x80, 0x80, 0xF0] ++ [0xE0, 0x90, 0x90, 0x90, 0xE0] ++
  [0xF0, 0x80, 0xF0, 0x80, 0xF0] ++ [0xF0, 0x80, 0xF0, 0x80, 0x80]

/-- The constraints R5 lets a model assume of any choice of the parameters. -/
def constraintsHold : Bool :=
  fontBase + 16 * glyphBytes ≤ interpRegionSize && interpRegionSize ≤ progStart &&
  progStart < memSize && memSize ≤ 2 ^ 16 - 4 && memSize % 2 == 0 && progStart % 2 == 0 &&
  1 ≤ displayWidth && 1 ≤ displayHeight && 1 ≤ stackCapacity &&
  fontData.length == 16 * glyphBytes

/-- The answer of the random source to draw number `k` (`41_alu.md` R158, D20). FREE VALUE, log 6: no body, so no
proof can see any of its values and a claim holds for every sequence of draws. -/
opaque randomByte : Nat → Byte

end Sys2Proof.Config
end

