-- ==== Sys2Proof/Machine/State.lean ====
section
/-! DEFINITION. The Machine State (`10_state.md` R20), its fault values (`60_exceptions.md` R221) and its reset value (R36). Plain data; every operation over it stands in the other files of Machine. -/

namespace Sys2Proof.Machine

/-- A fault value of R221, `(kind, detail, pc, word)`: one constructor per code of R221. `pc` is the address of the
faulting instruction; `word` is the raw instruction word, absent where none was fetched. The step that raises one answers a
next state with the latch set (R224, log 1); a later step answers `.fault` with the latched value (R225, log 2). All are
SAFE: the hardware makes no progress either. -/
inductive Fault where
  /-- Code 1, `UnsupportedInstruction`. Raised by the step on any illegal word (R97) and by `SYS` (R128). Safe. -/
  | unsupportedInstruction (pc word : Word)
  /-- Code 2, `StackFault(Overflow)`. Raised by `CALL` when `sp = STACK_CAPACITY` (R122). Safe. -/
  | stackOverflow (pc word : Word)
  /-- Code 3, `StackFault(Underflow)`. Raised by `RET` when `sp = 0` (R120). Safe. -/
  | stackUnderflow (pc word : Word)
  /-- Code 4, `MemoryFault(addr)`, `addr` the lowest offending address. Raised by `DRW`, `LD B`, `LD [I]` and
  `LD Vx, [I]` when their range leaves the memory (R64, R67). Safe. -/
  | memoryFault (addr : Nat) (pc word : Word)
  /-- Code 5, `FetchFault(Misaligned)`. Raised by the fetch of a step whose `pc` is odd (R62). Safe. -/
  | fetchMisaligned (pc : Word)
  /-- Code 6, `FetchFault(OutOfRange)`. Raised by the fetch of a step whose `pc` is even with `pc + 1 >= MEM_SIZE`
  (R62). Safe. -/
  | fetchOutOfRange (pc : Word)
  /-- Code 7, `KeyIndexFault(k)`, `k` the offending register value. Raised by `SKP` and `SKNP` when `V[x] > 15`
  (R200, R201). Safe. -/
  | keyIndexFault (k : Byte) (pc word : Word)
  deriving DecidableEq, Repr

/-- Why the model gives an instruction no meaning. No meaning of this model refuses. -/
inductive Refusal where
  /-- Raised by `exec` for an instruction that has no meaning yet. Safe: the model stops where the hardware goes on. No
  arm of `exec` raises it. -/
  | notModelled (mnemonic : String)
  deriving DecidableEq, Repr

/-- The wait-for-key state (R32). -/
inductive Awaiting where
  /-- Not waiting. -/
  | notWaiting
  /-- Waiting, with the destination register recorded. -/
  | waiting (r : RegIdx)
  deriving DecidableEq, Repr

/-- Memory (R34) as the list of the bytes that differ from the reset contents, by rising address
(`Memory.wf` of `Machine/Memory.lean` is the canonical form). -/
abbrev Memory := List Host.Cell

/-- The display grid (R30): `DISPLAY_HEIGHT` rows of `DISPLAY_WIDTH` cells, row 0 the top row, column 0 leftmost. -/
abbrev Grid := Vector (Vector Bool Config.displayWidth) Config.displayHeight

/-- The Machine State: the fields of R20 under the names of R8, and the model's own counter `draws`. -/
structure State where
  /-- `V[0]` to `V[15]` (R21); `V[15]` is the flag register `VF` (R22). -/
  V : Vector Byte Config.nregs
  /-- The index register (R23). -/
  I : Word
  /-- The program counter (R24). -/
  pc : Word
  /-- The call stack's entries (R27). -/
  stack : Vector Word Config.stackCapacity
  /-- The call stack's depth, in `[0, STACK_CAPACITY]` (R27). -/
  sp : Fin (Config.stackCapacity + 1)
  /-- The delay timer (R28). -/
  DT : Byte
  /-- The sound timer (R28). -/
  ST : Byte
  /-- The keypad latches (R29). -/
  key : Vector Bool Config.nkeys
  /-- The display grid (R30). -/
  disp : Grid
  /-- The display dirty flag (R30). -/
  dirty : Bool
  /-- The wait-for-key state (R32). -/
  awaiting : Awaiting
  /-- The fault latch (R33). -/
  fault : Option Fault
  /-- The memory (R34). -/
  mem : Memory
  /-- The model's own: how many random bytes have been drawn (log 6). It numbers the draws of the free random source and
  is no state of the hardware (R37). -/
  draws : Nat
  deriving DecidableEq, Repr

/-- The state right after reset: every field at the value R36 gives. Memory lists nothing: its reset contents are what an
unlisted address reads as. `draws` is 0 (DESIGN CHOICE, log 6). -/
def State.reset : State where
  V := Vector.replicate _ 0
  I := 0
  pc := BitVec.ofNat 16 Config.progStart
  stack := Vector.replicate _ 0
  sp := 0
  DT := 0
  ST := 0
  key := Vector.replicate _ false
  disp := Vector.replicate _ (Vector.replicate _ false)
  dirty := false
  awaiting := .notWaiting
  fault := none
  mem := []
  draws := 0

end Sys2Proof.Machine
end

