-- ==== Sys2Proof/Machine/Memory.lean ====
section
/-! DEFINITION. Memory (`10_state.md` R34, `20_memory.md` R60 to R67): reset contents, the canonical form, reading and writing one byte, runs of bytes in ascending order, and the range check that comes before any access. -/

namespace Sys2Proof.Machine

/-- What memory holds at `a` right after reset, and so what an unlisted address reads as: the font table at
`FONT_BASE`, zero elsewhere (R31, R36). -/
def resetByte (a : Nat) : Byte :=
  if Config.fontBase ≤ a then Config.fontData.getD (a - Config.fontBase) 0 else 0

/-- The canonical form holds from a lower bound on: addresses strictly rise and lie in `[0, MEM_SIZE)`, and no entry
equals what an unlisted address reads as. -/
def Memory.wfFrom : Nat → Memory → Bool
  | _, [] => true
  | lo, (a, b) :: m => decide (lo ≤ a) && decide (a < Config.memSize) && b != resetByte a && Memory.wfFrom (a + 1) m

/-- The canonical form of memory. -/
def Memory.wf (m : Memory) : Bool := Memory.wfFrom 0 m

/-- The byte at an address. Total: the instructions check their range first (R67). -/
def Memory.read : Memory → Nat → Byte
  | [], a => resetByte a
  | (k, v) :: m, a => if a = k then v else Memory.read m a

/-- The canonical list of one address: nothing where the byte is the reset byte. -/
def Memory.cell (a : Nat) (b : Byte) : Memory := if b = resetByte a then [] else [(a, b)]

/-- Writing one byte, keeping the canonical form. -/
def Memory.write : Memory → Nat → Byte → Memory
  | [], a, b => Memory.cell a b
  | (k, v) :: m, a, b =>
    if a < k then Memory.cell a b ++ (k, v) :: m
    else if a = k then Memory.cell a b ++ m
    else (k, v) :: Memory.write m a b

/-- The `n` bytes from `a` upward (R67, R69: ascending order). -/
def Memory.readBytes (m : Memory) (a : Nat) : Nat → List Byte
  | 0 => []
  | n + 1 => m.read a :: Memory.readBytes m (a + 1) n

/-- Writing bytes from `a` upward (R67, R69: ascending order). -/
def Memory.writeBytes (m : Memory) (a : Nat) : List Byte → Memory
  | [] => m
  | b :: bs => Memory.writeBytes (m.write a b) (a + 1) bs

/-- The range check of R67 for `count` bytes from `base`, in the natural numbers (R64): the lowest offending address,
`max(base, MEM_SIZE)`, or nothing when all of the range exists. An empty range is never out of bounds. -/
def rangeFault (base count : Nat) : Option Nat :=
  if count ≠ 0 ∧ Config.memSize ≤ base + count - 1 then some (max base Config.memSize) else none

end Sys2Proof.Machine
end

