-- ==== Sys2Proof/Machine/Ops.lean ====
section
/-! DEFINITION. The named operations over the state that the meanings share: registers, `pc`, the call stack, raising a fault (the machine's one exception entry), memory ranges, the random source, the keypad. There is no return from a fault (`60_exceptions.md` R225), so none stands beside it. -/

namespace Sys2Proof.Machine

/-- What a step or a meaning answers. -/
abbrev Result := Host.Outcome State Fault Refusal

/-- Reads `V[x]` (R21). -/
def State.readV (s : State) (x : RegIdx) : Byte := s.V[x.toNat]'x.isLt

/-- `V[x] <- b` (R21: no register is hardwired). -/
def State.writeV (s : State) (x : RegIdx) (b : Byte) : State := { s with V := s.V.set x.toNat b x.isLt }

/-- `VF`, the flag register (R22). -/
def State.VF (s : State) : Byte := s.readV Config.flagReg

/-- `VF <- b` (R22). -/
def State.writeVF (s : State) (b : Byte) : State := s.writeV Config.flagReg b

/-- `I <- a`. -/
def State.writeI (s : State) (a : Word) : State := { s with I := a }

/-- `pc <- target`. -/
def State.jump (s : State) (target : Word) : State := { s with pc := target }

/-- The address of the next instruction word, `pc + 2` (R25, R91). -/
def State.nextPc (s : State) : Word := s.pc + BitVec.ofNat 16 Config.instrBytes

/-- `pc <- pc + 2` (R25). -/
def State.advance (s : State) : State := s.jump s.nextPc

/-- `pc <- pc + 4` if the condition holds, else `pc <- pc + 2` (R25, R130). -/
def State.skipIf (s : State) (taken : Bool) : State := if taken then s.advance.advance else s.advance

/-- Raising a fault, R224: the latch is set and every other piece of state keeps its value. It is applied to the state at
the start of the step, so no write of the step survives (R9, D14). The next state carries the report (log 1). -/
def State.raise (s : State) (f : Fault) : Result := .next { s with fault := some f }

/-- Push of R27: nothing when the stack is full. -/
def State.push (s : State) (v : Word) : Option State :=
  if h : s.sp.val < Config.stackCapacity then
    some { s with stack := s.stack.set s.sp.val v h, sp := ⟨s.sp.val + 1, Nat.succ_lt_succ h⟩ }
  else none

/-- Pop of R27: the top entry and the state without it; the entry stays in the array. Nothing when the stack is
empty. -/
def State.pop (s : State) : Option (Word × State) :=
  if h : 0 < s.sp.val then
    have lt : s.sp.val - 1 < Config.stackCapacity := by have := s.sp.isLt; omega
    some (s.stack[s.sp.val - 1]'lt, { s with sp := ⟨s.sp.val - 1, Nat.lt_succ_of_lt lt⟩ })
  else none

/-- Runs `body` when the `count` bytes from `I` all exist, and otherwise raises `MemoryFault` for instruction `i`
(R67, R224). -/
def State.withRange (s : State) (i : Instr) (count : Nat) (body : State) : Result :=
  match rangeFault s.I.toNat count with
  | some addr => s.raise (.memoryFault addr s.pc (encode i))
  | none => .next body

/-- `random_byte()` (R9, R158): the free byte of this draw, and the state in which the next draw is another one. -/
def State.randomByte (s : State) : Byte × State := (Config.randomByte s.draws, { s with draws := s.draws + 1 })

/-- `key[k]` (R29). -/
def State.readKey (s : State) (k : KeyIdx) : Bool := s.key[k.toNat]'k.isLt

/-- The sixteen keypad indexes in ascending order (R204). -/
def allKeys : List KeyIdx := (List.range Config.nkeys).map (BitVec.ofNat 4)

/-- The least `k` with `key[k] = true` (R204). -/
def State.firstKey (s : State) : Option KeyIdx := allKeys.find? s.readKey

end Sys2Proof.Machine
end

