-- ==== Sys2Proof/Machine/Operands.lean ====
section
/-! DEFINITION. The operand forms (`30_encoding.md` R94) and the values an instruction computes from an operand: the zero-extended address, the register range, the font address, the decimal digits, the key a value names, the sprite's rows. -/

namespace Sys2Proof.Machine

/-- `zext_16(nnn)`: a byte address, not scaled (R94). -/
def addrOperand (nnn : Addr12) : Word := nnn.setWidth 16

/-- `zext_16` of a register value (R127, R171). -/
def zext16 (b : Byte) : Word := b.setWidth 16

/-- The registers `V[0]` to `V[x]`, ascending, `x + 1` of them (R94, R174, R175). -/
def regRange (x : RegIdx) : List RegIdx := (List.range (x.toNat + 1)).map (BitVec.ofNat 4)

/-- The number of registers in `regRange x`. -/
def regCount (x : RegIdx) : Nat := x.toNat + 1

/-- The address of the glyph for the low nibble of a value: `FONT_BASE + GLYPH_BYTES * d` (R172). -/
def fontAddress (v : Byte) : Word :=
  BitVec.ofNat 16 (Config.fontBase + Config.glyphBytes * (v.extractLsb' 0 4).toNat)

/-- The hundreds, tens and ones digits of a byte, each as a byte holding 0 to 9 (R173). -/
def bcdDigits (v : Byte) : List Byte :=
  [BitVec.ofNat 8 (v.toNat / 100), BitVec.ofNat 8 (v.toNat / 10 % 10), BitVec.ofNat 8 (v.toNat % 10)]

/-- The keypad latch a register value names: none for 16 to 255 (R200, D17). -/
def keyOfValue (v : Byte) : Option KeyIdx := if v.toNat < Config.nkeys then some (v.setWidth 4) else none

/-- Sprite pixel `j` of a row byte: bit 7 is the leftmost (R191). -/
def spritePixel (row : Byte) (j : Nat) : Bool := row.getLsbD (Config.spriteWidth - 1 - j)

end Sys2Proof.Machine
end

