-- ==== Sys2Proof/Machine/Flags.lean ====
section
/-! DEFINITION. Every flag computation of the machine (`10_state.md` R22): the flag is exactly 0x00 or 0x01, computed from the old operands, and written last (`41_alu.md` R147). -/

namespace Sys2Proof.Machine

/-- A flag as the byte written to `VF`: exactly 0x00 or 0x01 (R22). -/
def flagByte (b : Bool) : Byte := if b then 1 else 0

/-- Carry out of an 8-bit sum: 1 if the unsigned sum exceeds 255 (R148). -/
def carryFlag (a b : Byte) : Bool := decide (255 < a.toNat + b.toNat)

/-- No borrow in `a − b`: 1 if `a >= b` (R149, R151). -/
def noBorrowFlag (a b : Byte) : Bool := decide (b.toNat ≤ a.toNat)

/-- The bit a right shift by one loses: bit 0 (R150). -/
def shiftRightFlag (a : Byte) : Bool := a.getLsbD 0

/-- The bit a left shift by one loses: bit 7 (R152). -/
def shiftLeftFlag (a : Byte) : Bool := a.getLsbD 7

/-- `V[x] <- result`, then `V[15] <- flag` (R147: the flag is written last, D10). -/
def State.writeResultThenFlag (s : State) (x : RegIdx) (result : Byte) (flag : Bool) : State :=
  (s.writeV x result).writeVF (flagByte flag)

end Sys2Proof.Machine
end

