-- ==== Sys2Proof/Machine/Alu.lean ====
section
/-! DEFINITION. Register instructions (`41_alu.md`): load, add, move, logic, arithmetic with flag, shifts, random. All arithmetic is modulo 256 (R146). -/

namespace Sys2Proof.Machine

/-- `6xkk` load-immediate (R140). -/
def execLdImm (x : RegIdx) (kk : Byte) (s : State) : Result := .next (s.writeV x kk).advance

/-- `7xkk` add-immediate, no flag (R141). -/
def execAddImm (x : RegIdx) (kk : Byte) (s : State) : Result := .next (s.writeV x (s.readV x + kk)).advance

/-- `8xy0` move (R142). -/
def execLdReg (x y : RegIdx) (s : State) : Result := .next (s.writeV x (s.readV y)).advance

/-- `8xy1` OR, no flag (R143, R153). -/
def execOrReg (x y : RegIdx) (s : State) : Result := .next (s.writeV x (s.readV x ||| s.readV y)).advance

/-- `8xy2` AND, no flag (R144, R153). -/
def execAndReg (x y : RegIdx) (s : State) : Result := .next (s.writeV x (s.readV x &&& s.readV y)).advance

/-- `8xy3` XOR, no flag (R145, R153). -/
def execXorReg (x y : RegIdx) (s : State) : Result := .next (s.writeV x (s.readV x ^^^ s.readV y)).advance

/-- `8xy4` add-registers, `VF` = carry (R148). -/
def execAddReg (x y : RegIdx) (s : State) : Result :=
  let a := s.readV x
  let b := s.readV y
  .next (s.writeResultThenFlag x (a + b) (carryFlag a b)).advance

/-- `8xy5` subtract `x − y`, `VF` = no borrow (R149). -/
def execSubReg (x y : RegIdx) (s : State) : Result :=
  let a := s.readV x
  let b := s.readV y
  .next (s.writeResultThenFlag x (a - b) (noBorrowFlag a b)).advance

/-- `8xy6` shift-right of `V[x]`, `VF` = old bit 0; `y` ignored (R150, R154). -/
def execShr (x : RegIdx) (s : State) : Result :=
  let a := s.readV x
  .next (s.writeResultThenFlag x (a >>> 1) (shiftRightFlag a)).advance

/-- `8xy7` subtract-reverse `y − x`, `VF` = no borrow (R151). -/
def execSubnReg (x y : RegIdx) (s : State) : Result :=
  let a := s.readV x
  let b := s.readV y
  .next (s.writeResultThenFlag x (b - a) (noBorrowFlag b a)).advance

/-- `8xyE` shift-left of `V[x]`, `VF` = old bit 7; `y` ignored (R152, R154). -/
def execShl (x : RegIdx) (s : State) : Result :=
  let a := s.readV x
  .next (s.writeResultThenFlag x (a <<< 1) (shiftLeftFlag a)).advance

/-- `Cxkk` random: one free draw, masked with `kk` (R158). -/
def execRnd (x : RegIdx) (kk : Byte) (s : State) : Result :=
  let draw := s.randomByte
  .next (draw.2.writeV x (draw.1 &&& kk)).advance

end Sys2Proof.Machine
end

