-- ==== Sys2Proof/Machine/Display.lean ====
section
/-! DEFINITION. Display instructions (`43_display.md`): clear-screen and draw-sprite, with the sprite geometry of R191. -/

namespace Sys2Proof.Machine

/-- Row number of an unreduced row: modulo `DISPLAY_HEIGHT` (R191). -/
def wrapRow (r : Nat) : Fin Config.displayHeight := Fin.ofNat Config.displayHeight r

/-- Column number of an unreduced column: modulo `DISPLAY_WIDTH` (R191). -/
def wrapCol (c : Nat) : Fin Config.displayWidth := Fin.ofNat Config.displayWidth c

/-- `disp[r][c]` (R30). -/
def Grid.cell (g : Grid) (r : Fin Config.displayHeight) (c : Fin Config.displayWidth) : Bool := g[r.val][c.val]

/-- `disp[r][c] <- not disp[r][c]` (R192). -/
def Grid.flip (g : Grid) (r : Fin Config.displayHeight) (c : Fin Config.displayWidth) : Grid :=
  g.set r.val (g[r.val].set c.val (!(Grid.cell g r c)))

/-- The grid with every cell off (R190). -/
def Grid.blank : Grid := Vector.replicate _ (Vector.replicate _ false)

/-- A grid being drawn on, and whether a cell has gone from on to off. -/
structure Canvas where
  /-- The grid so far. -/
  grid : Grid
  /-- `collision` of R192 so far. -/
  collision : Bool
  deriving DecidableEq, Repr

/-- One sprite pixel at an unreduced row and column: a 0 pixel leaves its cell alone, a 1 pixel toggles it and records
a collision when it was on (R192). -/
def Canvas.drawPixel (k : Canvas) (row col : Nat) (on : Bool) : Canvas :=
  if on then
    { grid := Grid.flip k.grid (wrapRow row) (wrapCol col)
      collision := k.collision || Grid.cell k.grid (wrapRow row) (wrapCol col) }
  else k

/-- One sprite row: `for j from 0 to 7` (R192). -/
def Canvas.drawRow (k : Canvas) (row col : Nat) (b : Byte) : Canvas :=
  (List.range Config.spriteWidth).foldl (fun k j => k.drawPixel row (col + j) (spritePixel b j)) k

/-- The sprite's rows from the top down: `for i from 0 to n - 1` (R192). -/
def Canvas.drawRows (k : Canvas) (row col : Nat) : List Byte → Canvas
  | [] => k
  | b :: bs => (k.drawRow row col b).drawRows (row + 1) col bs

/-- `00E0` clear-screen (R190). -/
def execCls (s : State) : Result := .next { s with disp := Grid.blank, dirty := true }.advance

/-- `Dxyn` draw-sprite (R192): `V[x]` is the column, `V[y]` the row, both read before `VF` is written. -/
def execDrw (x y : RegIdx) (n : Nibble) (s : State) : Result :=
  let k := Canvas.drawRows ⟨s.disp, false⟩ (s.readV y).toNat (s.readV x).toNat (s.mem.readBytes s.I.toNat n.toNat)
  s.withRange (.drw x y n) n.toNat
    ({ s with disp := k.grid, dirty := true }.writeVF (flagByte k.collision)).advance

end Sys2Proof.Machine
end

