-- ==== Sys2Proof/Machine/Flow.lean ====
section
/-! DEFINITION. Control transfer (`40_flow.md`): return, jump, call, the four skips, jump-with-offset and the legacy form. -/

namespace Sys2Proof.Machine

/-- `00EE` return (R120). -/
def execRet (s : State) : Result :=
  match s.pop with
  | none => s.raise (.stackUnderflow s.pc (encode .ret))
  | some (target, t) => .next (t.jump target)

/-- `0nnn` legacy native call: always `UnsupportedInstruction` (R128). -/
def execSys (nnn : Addr12) (s : State) : Result := s.raise (.unsupportedInstruction s.pc (encode (.sys nnn)))

/-- `1nnn` jump (R121). -/
def execJp (nnn : Addr12) (s : State) : Result := .next (s.jump (addrOperand nnn))

/-- `2nnn` call: pushes `pc + 2` (R122). -/
def execCall (nnn : Addr12) (s : State) : Result :=
  match s.push s.nextPc with
  | none => s.raise (.stackOverflow s.pc (encode (.call nnn)))
  | some t => .next (t.jump (addrOperand nnn))

/-- `3xkk` skip-if-equal-immediate (R123). -/
def execSeImm (x : RegIdx) (kk : Byte) (s : State) : Result := .next (s.skipIf (s.readV x == kk))

/-- `4xkk` skip-if-not-equal-immediate (R124). -/
def execSneImm (x : RegIdx) (kk : Byte) (s : State) : Result := .next (s.skipIf (s.readV x != kk))

/-- `5xy0` skip-if-registers-equal (R125). -/
def execSeReg (x y : RegIdx) (s : State) : Result := .next (s.skipIf (s.readV x == s.readV y))

/-- `9xy0` skip-if-registers-not-equal (R126). -/
def execSneReg (x y : RegIdx) (s : State) : Result := .next (s.skipIf (s.readV x != s.readV y))

/-- `Bnnn` jump-with-offset: always `V[0]`, the sum not reduced (R127). -/
def execJpV0 (nnn : Addr12) (s : State) : Result := .next (s.jump (addrOperand nnn + zext16 (s.readV 0)))

end Sys2Proof.Machine
end

