-- ==== Sys2Proof/Machine/IndexMemory.lean ====
section
/-! DEFINITION. Index register and memory instructions (`42_index_memory.md`): load-index, add-to-index, font-address, store-bcd, store-registers, load-registers. -/

namespace Sys2Proof.Machine

/-- `Annn` load-index (R170). -/
def execLdI (nnn : Addr12) (s : State) : Result := .next (s.writeI (addrOperand nnn)).advance

/-- `Fx1E` add-to-index, modulo 2^16, no flag (R171, D12). -/
def execAddIVx (x : RegIdx) (s : State) : Result := .next (s.writeI (s.I + zext16 (s.readV x))).advance

/-- `Fx29` font-address (R172). -/
def execLdFVx (x : RegIdx) (s : State) : Result := .next (s.writeI (fontAddress (s.readV x))).advance

/-- Stores bytes from `I` upward, ascending. -/
def State.storeAtI (s : State) (bytes : List Byte) : State := { s with mem := s.mem.writeBytes s.I.toNat bytes }

/-- `I <- (I + x + 1) mod 65536` (R174, R175). -/
def State.advanceI (s : State) (x : RegIdx) : State := s.writeI (s.I + BitVec.ofNat 16 (regCount x))

/-- `for i from 0 to x: V[i] <- MemRead(I + i)` (R175). -/
def State.loadFromI (s : State) (x : RegIdx) : State :=
  (regRange x).foldl (fun t r => t.writeV r (s.mem.read (s.I.toNat + r.toNat))) s

/-- `Fx33` store-bcd (R173). -/
def execLdBVx (x : RegIdx) (s : State) : Result :=
  s.withRange (.ldBVx x) 3 (s.storeAtI (bcdDigits (s.readV x))).advance

/-- `Fx55` store-registers, `I` advances by `x + 1` (R174). -/
def execStoreRegs (x : RegIdx) (s : State) : Result :=
  s.withRange (.storeRegs x) (regCount x) ((s.storeAtI ((regRange x).map s.readV)).advanceI x).advance

/-- `Fx65` load-registers, `I` advances by `x + 1` (R175, D13). -/
def execLoadRegs (x : RegIdx) (s : State) : Result :=
  s.withRange (.loadRegs x) (regCount x) ((s.loadFromI x).advanceI x).advance

end Sys2Proof.Machine
end

