-- ==== Sys2Proof/Machine/InputTimers.lean ====
section
/-! DEFINITION. Keypad and timer instructions (`44_input_timers.md`): key skips, wait-for-key with its waiting step, timer read and set. -/

namespace Sys2Proof.Machine

/-- The key test of R200 and R201: a value above 15 raises `KeyIndexFault`, otherwise the skip is taken when the latch
has the wanted value. -/
def State.skipIfKey (s : State) (i : Instr) (x : RegIdx) (wanted : Bool) : Result :=
  match keyOfValue (s.readV x) with
  | none => s.raise (.keyIndexFault (s.readV x) s.pc (encode i))
  | some k => .next (s.skipIf (s.readKey k == wanted))

/-- `Ex9E` skip-if-key-pressed (R200). -/
def execSkp (x : RegIdx) (s : State) : Result := s.skipIfKey (.skp x) x true

/-- `ExA1` skip-if-key-not-pressed (R201). -/
def execSknp (x : RegIdx) (s : State) : Result := s.skipIfKey (.sknp x) x false

/-- `Fx0A` wait-for-key, entry step: only `awaiting` is written; `pc` stays (R203). -/
def execLdVxK (x : RegIdx) (s : State) : Result := .next { s with awaiting := .waiting x }

/-- The waiting step `WaitScan(r)` (R204). -/
def State.waitScan (s : State) (r : RegIdx) : State :=
  match s.firstKey with
  | some k => { s.writeV r (k.setWidth 8) with awaiting := .notWaiting }.advance
  | none => s

/-- `Fx07` read-delay-timer (R205). -/
def execLdVxDT (x : RegIdx) (s : State) : Result := .next (s.writeV x s.DT).advance

/-- `Fx15` set-delay-timer (R206). -/
def execLdDTVx (x : RegIdx) (s : State) : Result := .next { s with DT := s.readV x }.advance

/-- `Fx18` set-sound-timer (R207). -/
def execLdSTVx (x : RegIdx) (s : State) : Result := .next { s with ST := s.readV x }.advance

end Sys2Proof.Machine
end

