-- ==== Sys2Proof/Machine/Cycle.lean ====
section
/-! DEFINITION. The fetch (`20_memory.md` R62) and the whole of one step (`30_encoding.md` R90), which `Machine/Step.lean` calls; and placing an instruction word where the next step fetches it. -/

namespace Sys2Proof.Machine

/-- Whether `Fetch(a)` succeeds: `a` even and `a + 1 < MEM_SIZE` (R62). -/
def fetchable (a : Word) : Bool := a.toNat % 2 == 0 && decide (a.toNat + 1 < Config.memSize)

/-- `Fetch(pc)`: Misaligned before OutOfRange, then two bytes, high byte first (R62, R223). -/
def State.fetch (s : State) : Except Fault Word :=
  if s.pc.toNat % 2 = 1 then .error (.fetchMisaligned s.pc)
  else if Config.memSize ≤ s.pc.toNat + 1 then .error (.fetchOutOfRange s.pc)
  else .ok (wordOfBytes (s.mem.read s.pc.toNat) (s.mem.read (s.pc.toNat + 1)))

/-- Decode and execute a fetched word: an illegal word raises `UnsupportedInstruction` (R90, R97). -/
def State.runWord (s : State) (w : Word) : Result :=
  match decodeWord w with
  | .error _ => s.raise (.unsupportedInstruction s.pc w)
  | .ok i => exec i s

/-- The `step` event of R90: the fault latch first, then `awaiting`, then fetch, decode, execute. A step of a faulted
machine changes nothing and returns the latched fault (R225, log 2). -/
def cycle (s : State) : Result :=
  match s.fault with
  | some f => .fault f
  | none =>
    match s.awaiting with
    | .waiting r => .next (s.waitScan r)
    | .notWaiting =>
      match s.fetch with
      | .error f => s.raise f
      | .ok w => s.runWord w

/-- `s` with a word placed where its next step fetches: the latch and the wait, which keep a step from fetching, are
cleared, a `pc` that no fetch accepts goes to `PROG_START`, and the two bytes stand at `pc`, high byte first (log 14). -/
def State.placeWord (s : State) (w : Word) : State :=
  let pc := if fetchable s.pc then s.pc else BitVec.ofNat 16 Config.progStart
  { s with
    pc := pc
    awaiting := .notWaiting
    fault := none
    mem := s.mem.writeBytes pc.toNat (bytesOfWord w) }

end Sys2Proof.Machine
end

