-- ==== Sys2Proof/Machine/Events.lean ====
section
/-! DEFINITION. The events of the timer unit and the host (`60_exceptions.md` R236 to R246, `70_reset_and_hazards.md` R260, R263). Each is one atomic transition of the whole state (`00_scope.md` R6); none raises a fault (R223) and all still work while the fault latch is set (R225). -/

namespace Sys2Proof.Machine

/-- One timer of a tick: decremented, clamped at 0 (R236). -/
def countDown (t : Byte) : Byte := if t = 0 then 0 else t - 1

/-- `tone_stop` of a tick: `ST` was 1 before it (R236). -/
def toneStops (s : State) : Bool := s.ST == 1

/-- The `tick` event: the new state and the returned `tone_stop` (R236, R237). -/
def tick (s : State) : State × Bool := ({ s with DT := countDown s.DT, ST := countDown s.ST }, toneStops s)

/-- The level `tone`: should a tone be audible (R237). -/
def tone (s : State) : Bool := decide (0 < s.ST.toNat)

/-- The `key_set(k, b)` event (R243). -/
def keySet (k : KeyIdx) (b : Bool) (s : State) : State := { s with key := s.key.set k.toNat b k.isLt }

/-- The `dirty_ack()` event: `dirty` cleared, and the old `dirty` returned (R244). -/
def dirtyAck (s : State) : State × Bool := ({ s with dirty := false }, s.dirty)

/-- The host's read of the display: the cells in row-major order (R245, R30). -/
def readDisplay (s : State) : List Bool := s.disp.toList.flatMap Vector.toList

/-- The host's read of the fault latch (R246). -/
def readFault (s : State) : Option Fault := s.fault

/-- The effect of `load(image)`: bytes beyond `MEM_SIZE - PROG_START` are dropped (R263). When the host has this move is
`Phase.after` of `Machine/Session.lean` (R247). -/
def load (image : List Byte) (s : State) : State :=
  { s with mem := s.mem.writeBytes Config.progStart (image.take (Config.memSize - Config.progStart)) }

/-- The `reset` event (R260): every field of the Machine State at its reset value. The random source is no state of the
machine (R37), so the count of its draws goes on: a new session sees new draws (log 6). -/
def resetEvent (s : State) : State := { State.reset with draws := s.draws }

end Sys2Proof.Machine
end

