-- ==== Sys2Proof/Machine/Session.lean ====
section
/-! DEFINITION. The block's whole interface (`60_exceptions.md` R240): every event of every agent, what it returns, and any interleaving of events (`00_scope.md` R6) that keeps the host's duties: an event against them has no move (R247). -/

namespace Sys2Proof.Machine

/-- The events of R240. -/
inductive Event where
  /-- `reset()` (R260). -/
  | reset
  /-- `load(image)` (R263). -/
  | load (image : List Byte)
  /-- `step()` (R90). -/
  | step
  /-- `tick()` (R236). -/
  | tick
  /-- `key_set(k, b)` (R243). -/
  | keySet (k : KeyIdx) (b : Bool)
  /-- `dirty_ack()` (R244). -/
  | dirtyAck
  /-- The read of `disp` (R245). -/
  | readDisplay
  /-- The read of `tone` (R237). -/
  | readTone
  /-- The read of `fault` (R246). -/
  | readFault
  deriving DecidableEq, Repr

/-- What an event returns to the host (R240). -/
inductive Response where
  /-- Nothing. -/
  | nothing
  /-- A step's `Ok`. -/
  | ok
  /-- A step's `Fault(f)`. -/
  | fault (f : Fault)
  /-- A tick's `tone_stop`. -/
  | toneStop (b : Bool)
  /-- The old `dirty` of a `dirty_ack`. -/
  | wasDirty (b : Bool)
  /-- The grid, row-major. -/
  | display (cells : List Bool)
  /-- The tone level. -/
  | toneLevel (b : Bool)
  /-- The fault latch. -/
  | faultLatch (f : Option Fault)
  /-- The model refuses the instruction; no step of this model answers so. -/
  | refused (r : Refusal)
  deriving DecidableEq, Repr

/-- What a step that ends in this state returns: `Ok`, or the fault that stands in the latch (R90, R224). -/
def stepReport (s : State) : Response :=
  match s.fault with
  | none => .ok
  | some f => .fault f

/-- The `step` event as the contract of R90: the state after it and what it returns. -/
def stepEvent (s : State) : State × Response :=
  match step s with
  | .next t => (t, stepReport t)
  | .fault f => (s, .fault f)
  | .refused r => (s, .refused r)

/-- What an event does where the host may perform it (R240): the state after it and what it returns. Which events the host
may perform when is `Phase.after`. -/
def eventEffect (e : Event) (s : State) : State × Response :=
  match e with
  | .reset => (resetEvent s, .nothing)
  | .load image => (load image s, .nothing)
  | .step => stepEvent s
  | .tick => ((Machine.tick s).1, .toneStop (Machine.tick s).2)
  | .keySet k b => (Machine.keySet k b s, .nothing)
  | .dirtyAck => ((Machine.dirtyAck s).1, .wasDirty (Machine.dirtyAck s).2)
  | .readDisplay => (s, .display (Machine.readDisplay s))
  | .readTone => (s, .toneLevel (tone s))
  | .readFault => (s, .faultLatch (Machine.readFault s))

/-- How far a session has come, for the host's duties of R247. It is no part of the Machine State (R20, log 16). -/
inductive Phase where
  /-- No `reset` yet. -/
  | unborn
  /-- After `reset`, before the first `step`. -/
  | fresh
  /-- After the first `step`. -/
  | running
  deriving DecidableEq, Repr

/-- The phase after an event, or nothing where the host's duties give the event no move (R247, D24): before the first
`reset` there is only `reset`, and `load` only after `reset` and before the first `step`; a later `reset` starts a new
session (R260). -/
def Phase.after : Phase → Event → Option Phase
  | _, .reset => some .fresh
  | .fresh, .load _ => some .fresh
  | .running, .load _ => none
  | .fresh, .step | .running, .step => some .running
  | .fresh, .tick | .fresh, .keySet _ _ | .fresh, .dirtyAck | .fresh, .readDisplay | .fresh, .readTone
  | .fresh, .readFault => some .fresh
  | .running, .tick | .running, .keySet _ _ | .running, .dirtyAck | .running, .readDisplay | .running, .readTone
  | .running, .readFault => some .running
  | .unborn, .load _ | .unborn, .step | .unborn, .tick | .unborn, .keySet _ _ | .unborn, .dirtyAck
  | .unborn, .readDisplay | .unborn, .readTone | .unborn, .readFault => none

/-- One move of a session: the phase and the state after the event and what it returns, or no move (R247). -/
def perform (p : Phase) (e : Event) (s : State) : Option (Phase × State × Response) :=
  (p.after e).map fun q => (q, eventEffect e s)

/-- A session: any interleaving of events, in the order the host chose (R6, D21). It has no run where one of its events has
no move. -/
def session : List Event → Phase → State → Option (Phase × State × List Response)
  | [], p, s => some (p, s, [])
  | e :: es, p, s =>
    match perform p e s with
    | none => none
    | some (q, t, r) => (session es q t).map fun out => (out.1, out.2.1, r :: out.2.2)

/-- Whether the host keeps its duties from a phase on (R247). -/
def legalFrom : Phase → List Event → Bool
  | _, [] => true
  | p, e :: es =>
    match p.after e with
    | none => false
    | some q => legalFrom q es

/-- A session in which the host keeps its duties from the start (R247). -/
def legalSession (es : List Event) : Bool := legalFrom .unborn es

end Sys2Proof.Machine
end

