-- ==== Sys2Proof/Machine/Faults.lean ====
section
/-! DEFINITION. Reading a fault record (`60_exceptions.md` R221): its kind, code, detail, `pc` and word. -/

namespace Sys2Proof.Machine

/-- The kind of a fault as R221 names it. -/
def Fault.kind : Fault → String
  | .unsupportedInstruction _ _ => "UnsupportedInstruction"
  | .stackOverflow _ _ | .stackUnderflow _ _ => "StackFault"
  | .memoryFault _ _ _ => "MemoryFault"
  | .fetchMisaligned _ | .fetchOutOfRange _ => "FetchFault"
  | .keyIndexFault _ _ _ => "KeyIndexFault"

/-- The code column of R221 (D16). -/
def Fault.code : Fault → Nat
  | .unsupportedInstruction _ _ => 1
  | .stackOverflow _ _ => 2
  | .stackUnderflow _ _ => 3
  | .memoryFault _ _ _ => 4
  | .fetchMisaligned _ => 5
  | .fetchOutOfRange _ => 6
  | .keyIndexFault _ _ _ => 7

/-- "The program counter at which it occurred" (R221). -/
def Fault.pc : Fault → Word
  | .unsupportedInstruction pc _ | .stackOverflow pc _ | .stackUnderflow pc _ | .memoryFault _ pc _
  | .fetchMisaligned pc | .fetchOutOfRange pc | .keyIndexFault _ pc _ => pc

/-- The raw instruction word, absent for a fetch fault (R221). -/
def Fault.word : Fault → Option Word
  | .unsupportedInstruction _ w | .stackOverflow _ w | .stackUnderflow _ w | .memoryFault _ _ w
  | .keyIndexFault _ _ w => some w
  | .fetchMisaligned _ | .fetchOutOfRange _ => none

/-- The offending address of a `MemoryFault` (R221). -/
def Fault.addr : Fault → Option Nat
  | .memoryFault a _ _ => some a
  | .unsupportedInstruction _ _ | .stackOverflow _ _ | .stackUnderflow _ _ | .fetchMisaligned _
  | .fetchOutOfRange _ | .keyIndexFault _ _ _ => none

/-- The offending register value of a `KeyIndexFault` (R221). -/
def Fault.key : Fault → Option Byte
  | .keyIndexFault k _ _ => some k
  | .unsupportedInstruction _ _ | .stackOverflow _ _ | .stackUnderflow _ _ | .memoryFault _ _ _
  | .fetchMisaligned _ | .fetchOutOfRange _ => none

end Sys2Proof.Machine
end

