-- ==== Sys2Proof/Safety.lean ====
section
/-! DEFINITION. What counts as a safe run, in the terms the claims use: a state ready to execute, a run that has ended, a state of a session that has not faulted, and the invariant every step keeps. -/

namespace Sys2Proof.Machine

/-- The state is ready to execute an instruction: no latched fault and no wait (`30_encoding.md` R90). -/
structure Ready (s : State) : Prop where
  /-- No latched fault. -/
  noFault : s.fault = none
  /-- No key wait. -/
  notWaiting : s.awaiting = .notWaiting

/-- "The program has ended" (`70_reset_and_hazards.md` R268, D28): ready, and the word at `pc` is a jump to `pc`. A
convention of the spec, no feature of the hardware. -/
def Ended (s : State) : Prop := Ready s ∧ s.fetch = .ok (0x1000 ||| s.pc)

/-- `k` steps from `s` all answer a next state without a latched fault, and end in `t` (R225: no claim about a result holds
of a run that faulted). -/
def SafeRun : Nat → State → State → Prop
  | 0, s, t => s = t ∧ s.fault = none
  | k + 1, s, t => s.fault = none ∧ ∃ u, step s = .next u ∧ SafeRun k u t

/-- A return address: even and at most `MEM_SIZE` (`40_flow.md` R120: "always even and at most `MEM_SIZE`"). -/
def IsReturnAddress (a : Word) : Prop := a.toNat % 2 = 0 ∧ a.toNat ≤ Config.memSize

/-- The largest value a step writes to `pc`: `max(MEM_SIZE + 2, 0xFFF + 0xFF)` (`10_state.md` R26). -/
def pcBound : Nat := max (Config.memSize + 2) (0xFFF + 0xFF)

/-- The invariant of the machine: what every step keeps and reset establishes. -/
structure MachineInvariant (s : State) : Prop where
  /-- Memory keeps its canonical form, so no address outside it is ever stored to (R34). -/
  memory : s.mem.wf = true
  /-- Every live stack entry is a return address (R27, R120). -/
  stack : ∀ j (h : j < Config.stackCapacity), j < s.sp.val → IsReturnAddress s.stack[j]
  /-- `pc` never wraps (R26). -/
  pc : s.pc.toNat ≤ pcBound
  /-- While waiting, `pc` keeps the fetchable address of the `Fx0A` word and no fault is latched (R203, R90: the two
  "cannot both be set"). -/
  waiting : ∀ r, s.awaiting = .waiting r → fetchable s.pc = true ∧ s.fault = none
  /-- A latched fault names the address `pc` still holds (R224: "`pc` keeps pointing at the faulting instruction"). -/
  fault : ∀ f, s.fault = some f → f.pc = s.pc

end Sys2Proof.Machine
end

