-- ==== Sys2Proof/Certificates/Slice0/Obligations.lean ====
section
/-! DEFINITION. The statements for the provers. The encoding lines of the instruction rules, whose numbers the spec takes from general knowledge (D6, log 8), are all in `EncodingLines`; the statements about an instruction say what it does. The namespace `Sys2Proof.Claims` holds the words they are written in: the parts of the state and what "unchanged" means for each, the encoding clause, and the tables of the spec that several statements share. -/

namespace Sys2Proof.Claims

open Sys2Proof.Machine

/-- The parts of the state, the rows of `10_state.md` R35 (`V` whole), with `pc`, and the model's own `draws`. -/
inductive Part where
  | V | I | pc | stack | sp | DT | ST | key | disp | dirty | awaiting | fault | mem | draws
  deriving DecidableEq, Repr

/-- A part of the state is after as it was before; memory byte by byte, as it is read. -/
def Unchanged (s t : State) : Part → Prop
  | .V => t.V = s.V
  | .I => t.I = s.I
  | .pc => t.pc = s.pc
  | .stack => t.stack = s.stack
  | .sp => t.sp = s.sp
  | .DT => t.DT = s.DT
  | .ST => t.ST = s.ST
  | .key => t.key = s.key
  | .disp => t.disp = s.disp
  | .dirty => t.dirty = s.dirty
  | .awaiting => t.awaiting = s.awaiting
  | .fault => t.fault = s.fault
  | .mem => ∀ a, t.mem.read a = s.mem.read a
  | .draws => t.draws = s.draws

/-- The frame: every part of the state but the named ones is unchanged. -/
def OnlyChanges (parts : List Part) (s t : State) : Prop := ∀ p, p ∉ parts → Unchanged s t p

/-- Every register but the named ones is unchanged. -/
def OtherRegs (changed : RegIdx → Prop) (s t : State) : Prop := ∀ r, ¬ changed r → t.readV r = s.readV r

/-- The instruction answers a next state that differs from `s` in the fault latch alone, which holds `f` (R224). -/
def Raises (i : Instr) (s : State) (f : Fault) : Prop := exec i s = .next { s with fault := some f }

/-- The encoding line of an instruction rule: every word with these bits decodes to this instruction, whose operands are
the word's fields. The numbers are R96's, which the spec says are from general knowledge (D6, log 8). -/
def Encoded (mask value : Word) (i : Word → Instr) : Prop := ∀ w, w &&& mask = value → decodeWord w = .ok (i w)

/-- The illegal words of `30_encoding.md` R97, family by family, on the numeric fields of the word. -/
def Illegal (w : Word) : Prop :=
  let op := w.toNat / 4096
  let n := w.toNat % 16
  let kk := w.toNat % 256
  op = 0 ∧ w ≠ 0x00E0 ∧ w ≠ 0x00EE ∨
  op = 5 ∧ n ≠ 0 ∨
  op = 8 ∧ n ∈ [8, 9, 0xA, 0xB, 0xC, 0xD, 0xF] ∨
  op = 9 ∧ n ≠ 0 ∨
  op = 0xE ∧ kk ∉ [0x9E, 0xA1] ∨
  op = 0xF ∧ kk ∉ [0x07, 0x0A, 0x15, 0x18, 0x1E, 0x29, 0x33, 0x55, 0x65]

/-- The new `pc` of R25's table, in the natural numbers, for an instruction that raises no fault. -/
def newPc (i : Instr) (s : State) : Nat :=
  let skip (taken : Bool) : Nat := s.pc.toNat + if taken then 4 else 2
  match i with
  | .jp nnn | .call nnn => nnn.toNat
  | .ret => (s.stack.toList.getD (s.sp.val - 1) 0).toNat
  | .jpV0 nnn => nnn.toNat + (s.readV 0).toNat
  | .seImm x kk => skip (s.readV x = kk)
  | .sneImm x kk => skip (s.readV x ≠ kk)
  | .seReg x y => skip (s.readV x = s.readV y)
  | .sneReg x y => skip (s.readV x ≠ s.readV y)
  | .skp x => skip (∃ k : KeyIdx, k.toNat = (s.readV x).toNat ∧ s.readKey k = true)
  | .sknp x => skip (∃ k : KeyIdx, k.toNat = (s.readV x).toNat ∧ s.readKey k = false)
  | .ldVxK _ => s.pc.toNat
  | _ => s.pc.toNat + 2

/-- The parts an instruction may write, the W entries of R35's table read by instruction. -/
def mayWrite : Instr → List Part
  | .cls => [.pc, .disp, .dirty]
  | .ret | .call _ => [.pc, .stack, .sp, .fault]
  | .sys _ => [.fault]
  | .jp _ | .jpV0 _ | .seImm _ _ | .sneImm _ _ | .seReg _ _ | .sneReg _ _ => [.pc]
  | .ldImm _ _ | .addImm _ _ | .ldReg _ _ | .orReg _ _ | .andReg _ _ | .xorReg _ _ | .addReg _ _ | .subReg _ _
  | .shr _ _ | .subnReg _ _ | .shl _ _ | .ldVxDT _ => [.pc, .V]
  | .rnd _ _ => [.pc, .V, .draws]
  | .ldI _ | .addIVx _ | .ldFVx _ => [.pc, .I]
  | .drw _ _ _ => [.pc, .V, .disp, .dirty, .fault]
  | .skp _ | .sknp _ => [.pc, .fault]
  | .ldVxK _ => [.awaiting]
  | .ldDTVx _ => [.pc, .DT]
  | .ldSTVx _ => [.pc, .ST]
  | .ldBVx _ => [.pc, .mem, .fault]
  | .storeRegs _ => [.pc, .I, .mem, .fault]
  | .loadRegs _ => [.pc, .V, .I, .fault]

/-- The six instructions that write `VF` as a flag (R22). -/
def writesFlag : Instr → Bool
  | .addReg _ _ | .subReg _ _ | .subnReg _ _ | .shr _ _ | .shl _ _ | .drw _ _ _ => true
  | _ => false

/-- `VF` is the named destination of the instruction (R22: "unless `x = 15` makes it the named destination"). -/
def namesVF : Instr → Bool
  | .ldImm x _ | .addImm x _ | .ldReg x _ | .orReg x _ | .andReg x _ | .xorReg x _ | .rnd x _ | .ldVxDT x
  | .loadRegs x => x == 15
  | _ => false

/-- The byte at address `a` after `count` bytes were stored from `I` upward, byte `k` of them `bytes k`: the stored one
where `a` is one of these addresses, the old one elsewhere. -/
def byteAfterStore (s : State) (count : Nat) (bytes : Nat → Byte) (a : Nat) : Byte :=
  if s.I.toNat ≤ a ∧ a < s.I.toNat + count then bytes (a - s.I.toNat) else s.mem.read a

/-- Every fetch after a store sees it: whatever state has that memory and a fetchable `pc`, its fetch gives the two bytes as
the store left them, be both, one or none of them stored (`20_memory.md` R73, R62). -/
def FetchSeesStore (s t : State) (count : Nat) (bytes : Nat → Byte) : Prop :=
  ∀ u : State, u.mem = t.mem → u.pc.toNat % 2 = 0 → u.pc.toNat + 1 < Config.memSize →
    u.fetch = .ok (wordOfBytes (byteAfterStore s count bytes u.pc.toNat) (byteAfterStore s count bytes (u.pc.toNat + 1)))

/-- Some 1 bit of the sprite of `Dxyn` falls on cell `(r, c)`, by the geometry of `43_display.md` R191. -/
def Covers (s : State) (x y : RegIdx) (n : Nibble) (r : Fin 32) (c : Fin 64) : Prop :=
  ∃ i j : Nat, i < n.toNat ∧ j < 8 ∧ ((s.readV y).toNat + i) % 32 = r.val ∧ ((s.readV x).toNat + j) % 64 = c.val ∧
    (s.mem.read (s.I.toNat + i)).getLsbD (7 - j) = true

end Sys2Proof.Claims

open Sys2Proof Sys2Proof.Machine Sys2Proof.Claims

/-! ## Encoding -/

/-- Decoder and encoder agree, on the word and on the bytes in memory, for every well-formed instruction with every
operand (R95, R96). -/
def Obligations.DecodeOfEncode : Prop :=
  ∀ i : Instr, i.wellFormed = true →
    decodeWord (encode i) = .ok i ∧ ∀ rest, decodeBytes (encodeBytes i ++ rest) = .ok (i, rest)

/-- Each word has one meaning: what the decoder reads encodes back to the very word, no bit dropped, and is well formed
(R95, R98). -/
def Obligations.EncodeOfDecode : Prop :=
  ∀ (w : Word) (i : Instr), decodeWord w = .ok i → i.wellFormed = true ∧ encode i = w

/-- The decoder reads the instruction of the first row of the opcode map that accepts the word, and no two rows but row 3
overlap (R96). -/
def Obligations.DecoderFollowsOpcodeMap : Prop :=
  (∀ w : Word, (opcodeMap.find? fun r => r.accepts w).map OpcodeRow.mnemonic
    = (decodeWord w).toOption.map Instr.mnemonic) ∧
  (∀ r ∈ opcodeMap, ∀ r' ∈ opcodeMap, r ≠ r' → r.mnemonic ≠ "SYS_nnn" → r'.mnemonic ≠ "SYS_nnn" →
    ∀ w : Word, ¬ (r.accepts w = true ∧ r'.accepts w = true))

/-- The encoding line of every instruction rule, row by row of R96: every word with the row's bits decodes to the row's
instruction, each operand the word's field; `0nnn` is tried only after `00E0` and `00EE`. -/
def Obligations.EncodingLines : Prop :=
  Encoded 0xFFFF 0x00E0 (fun _ => .cls) ∧
  Encoded 0xFFFF 0x00EE (fun _ => .ret) ∧
  (∀ w : Word, w &&& 0xF000 = 0 → w ≠ 0x00E0 → w ≠ 0x00EE → decodeWord w = .ok (.sys (fieldNNN w))) ∧
  Encoded 0xF000 0x1000 (fun w => .jp (fieldNNN w)) ∧
  Encoded 0xF000 0x2000 (fun w => .call (fieldNNN w)) ∧
  Encoded 0xF000 0x3000 (fun w => .seImm (fieldX w) (fieldKK w)) ∧
  Encoded 0xF000 0x4000 (fun w => .sneImm (fieldX w) (fieldKK w)) ∧
  Encoded 0xF00F 0x5000 (fun w => .seReg (fieldX w) (fieldY w)) ∧
  Encoded 0xF000 0x6000 (fun w => .ldImm (fieldX w) (fieldKK w)) ∧
  Encoded 0xF000 0x7000 (fun w => .addImm (fieldX w) (fieldKK w)) ∧
  Encoded 0xF00F 0x8000 (fun w => .ldReg (fieldX w) (fieldY w)) ∧
  Encoded 0xF00F 0x8001 (fun w => .orReg (fieldX w) (fieldY w)) ∧
  Encoded 0xF00F 0x8002 (fun w => .andReg (fieldX w) (fieldY w)) ∧
  Encoded 0xF00F 0x8003 (fun w => .xorReg (fieldX w) (fieldY w)) ∧
  Encoded 0xF00F 0x8004 (fun w => .addReg (fieldX w) (fieldY w)) ∧
  Encoded 0xF00F 0x8005 (fun w => .subReg (fieldX w) (fieldY w)) ∧
  Encoded 0xF00F 0x8006 (fun w => .shr (fieldX w) (fieldY w)) ∧
  Encoded 0xF00F 0x8007 (fun w => .subnReg (fieldX w) (fieldY w)) ∧
  Encoded 0xF00F 0x800E (fun w => .shl (fieldX w) (fieldY w)) ∧
  Encoded 0xF00F 0x9000 (fun w => .sneReg (fieldX w) (fieldY w)) ∧
  Encoded 0xF000 0xA000 (fun w => .ldI (fieldNNN w)) ∧
  Encoded 0xF000 0xB000 (fun w => .jpV0 (fieldNNN w)) ∧
  Encoded 0xF000 0xC000 (fun w => .rnd (fieldX w) (fieldKK w)) ∧
  Encoded 0xF000 0xD000 (fun w => .drw (fieldX w) (fieldY w) (fieldN w)) ∧
  Encoded 0xF0FF 0xE09E (fun w => .skp (fieldX w)) ∧
  Encoded 0xF0FF 0xE0A1 (fun w => .sknp (fieldX w)) ∧
  Encoded 0xF0FF 0xF007 (fun w => .ldVxDT (fieldX w)) ∧
  Encoded 0xF0FF 0xF00A (fun w => .ldVxK (fieldX w)) ∧
  Encoded 0xF0FF 0xF015 (fun w => .ldDTVx (fieldX w)) ∧
  Encoded 0xF0FF 0xF018 (fun w => .ldSTVx (fieldX w)) ∧
  Encoded 0xF0FF 0xF01E (fun w => .addIVx (fieldX w)) ∧
  Encoded 0xF0FF 0xF029 (fun w => .ldFVx (fieldX w)) ∧
  Encoded 0xF0FF 0xF033 (fun w => .ldBVx (fieldX w)) ∧
  Encoded 0xF0FF 0xF055 (fun w => .storeRegs (fieldX w)) ∧
  Encoded 0xF0FF 0xF065 (fun w => .loadRegs (fieldX w))

/-- R92: the six fields by bit position, their overlaps, and in terms of the two fetched bytes. -/
def Obligations.FieldsOfWord : Prop :=
  (∀ w : Word,
    (fieldOp w).toNat = w.toNat / 4096 ∧ (fieldX w).toNat = w.toNat / 256 % 16 ∧
    (fieldY w).toNat = w.toNat / 16 % 16 ∧ (fieldN w).toNat = w.toNat % 16 ∧
    (fieldKK w).toNat = w.toNat % 256 ∧ (fieldNNN w).toNat = w.toNat % 4096 ∧
    fieldKK w = fieldY w ++ fieldN w ∧ fieldNNN w = fieldX w ++ fieldY w ++ fieldN w) ∧
  (∀ hi lo : Byte,
    let w := wordOfBytes hi lo
    (fieldOp w).toNat = hi.toNat / 16 ∧ (fieldX w).toNat = hi.toNat % 16 ∧
    (fieldY w).toNat = lo.toNat / 16 ∧ (fieldN w).toNat = lo.toNat % 16 ∧
    fieldKK w = lo ∧ (fieldNNN w).toNat = hi.toNat % 16 * 256 + lo.toNat)

/-- R97: a step that fetches an illegal word raises `UnsupportedInstruction` with that word and nothing else changes; every
other word decodes to an instruction that is not the legacy form. -/
def Obligations.IllegalWordsRaise : Prop :=
  (∀ (s : State) (w : Word), Ready s → s.fetch = .ok w → Illegal w →
    step s = .next { s with fault := some (.unsupportedInstruction s.pc w) }) ∧
  (∀ w : Word, ¬ Illegal w → ∃ i, decodeWord w = .ok i ∧ ∀ nnn, i ≠ .sys nnn)

/-- Words written out from the spec's encodings decode to the instructions they stand for (a sanity check). -/
def Obligations.SpecWordsDecode : Prop :=
  decodeWord 0x00E0 = .ok .cls ∧ decodeWord 0x2210 = .ok (.call 0x210) ∧ decodeWord 0x8FE4 = .ok (.addReg 15 14) ∧
  decodeWord 0xD125 = .ok (.drw 1 2 5) ∧ decodeWord 0xFA33 = .ok (.ldBVx 10) ∧ decodeWord 0xE49E = .ok (.skp 4) ∧
  decodeWord 0x5121 = .error (.unsupportedInstruction 0x5121)

/-! ## The step and the faults -/

/-- R90: the step's order of checks. A latched fault is returned and nothing changes; a wait scans; otherwise the fetched
word is decoded and executed, and a failing fetch or decode raises. The returned report is the latch of the new state. -/
def Obligations.StepContract : Prop :=
  (∀ (s : State) (f : Fault), s.fault = some f → step s = .fault f ∧ stepEvent s = (s, .fault f)) ∧
  (∀ (s : State) (r : RegIdx), s.fault = none → s.awaiting = .waiting r → step s = .next (s.waitScan r)) ∧
  (∀ (s : State) (f : Fault), Ready s → s.fetch = .error f → step s = .next { s with fault := some f }) ∧
  (∀ (s : State) (w : Word) (e : DecodeError), Ready s → s.fetch = .ok w → decodeWord w = .error e →
    step s = .next { s with fault := some (.unsupportedInstruction s.pc w) }) ∧
  (∀ (s t : State), step s = .next t → (t.fault = none → stepEvent s = (t, .ok)) ∧
    (∀ f, t.fault = some f → stepEvent s = (t, .fault f)))

/-- A step runs the decoded instruction: when no fault is latched, no wait pends and the two bytes at an even `pc` inside
memory decode to `i`, the step is `exec i` at that very state (R90, R62). -/
def Obligations.StepRunsDecodedInstruction : Prop :=
  ∀ (s : State) (i : Instr), Ready s → s.pc.toNat % 2 = 0 → s.pc.toNat + 1 < 4096 →
    decodeWord (s.mem.read s.pc.toNat ++ s.mem.read (s.pc.toNat + 1)) = .ok i → step s = exec i s

/-- R62: the fetch of a step: odd addresses first, then addresses beyond memory, then two bytes, high byte first. -/
def Obligations.FetchRule : Prop :=
  ∀ s : State,
    (s.pc.toNat % 2 = 1 → s.fetch = .error (.fetchMisaligned s.pc)) ∧
    (s.pc.toNat % 2 = 0 → Config.memSize ≤ s.pc.toNat + 1 → s.fetch = .error (.fetchOutOfRange s.pc)) ∧
    (s.pc.toNat % 2 = 0 → s.pc.toNat + 1 < Config.memSize →
      ∃ w : Word, s.fetch = .ok w ∧ (w.extractLsb' 8 8 = s.mem.read s.pc.toNat) ∧
        (w.extractLsb' 0 8 = s.mem.read (s.pc.toNat + 1)))

/-- R224 with the spec's decisions D14 and D15: faults are precise. A step that latches a fault changes the latch alone and
returns the fault; the record holds the address of the faulting instruction, and the raw word exactly when one was
fetched. -/
def Obligations.FaultsArePrecise : Prop :=
  ∀ (s t : State) (f : Fault), s.fault = none → step s = .next t → t.fault = some f →
    t = { s with fault := some f } ∧ f.pc = s.pc ∧ stepEvent s = (t, .fault f) ∧
    ((s.fetch = .error f ∧ f.word = none) ∨ ∃ w, s.fetch = .ok w ∧ f.word = some w)

/-- R222: which instruction can raise which fault; every other instruction raises none. -/
def Obligations.WhoRaisesWhat : Prop :=
  ∀ (i : Instr) (s t : State) (f : Fault), s.fault = none → exec i s = .next t → t.fault = some f →
    (i = .ret ∧ f = .stackUnderflow s.pc (encode i)) ∨
    (∃ nnn, i = .call nnn ∧ f = .stackOverflow s.pc (encode i)) ∨
    (∃ x y n, i = .drw x y n ∧ n ≠ 0 ∧ f = .memoryFault (max s.I.toNat Config.memSize) s.pc (encode i)) ∨
    (∃ x, (i = .ldBVx x ∨ i = .storeRegs x ∨ i = .loadRegs x) ∧
      f = .memoryFault (max s.I.toNat Config.memSize) s.pc (encode i)) ∨
    (∃ x, (i = .skp x ∨ i = .sknp x) ∧ f = .keyIndexFault (s.readV x) s.pc (encode i)) ∨
    (∃ nnn, i = .sys nnn ∧ f = .unsupportedInstruction s.pc (encode i))

/-- R225: a faulted machine is inert but for ticks and host events, and only `reset` clears the latch. -/
def Obligations.FaultedMachineIsInert : Prop :=
  ∀ (s : State) (f : Fault), s.fault = some f →
    stepEvent s = (s, .fault f) ∧
    (∀ e : Event, (eventEffect e s).1.fault ≠ some f → e = .reset) ∧
    (resetEvent s).fault = none ∧
    (tick s).1.DT.toNat = s.DT.toNat - 1 ∧ (tick s).1.ST.toNat = s.ST.toNat - 1 ∧
    (∀ k b, (keySet k b s).readKey k = b) ∧ dirtyAck s = ({ s with dirty := false }, s.dirty) ∧ readFault s = some f

/-- Every step of a machine without a latched fault answers a next state, whatever the instruction, the operands and the
data: the model refuses nothing and stops nowhere (`93_implementation_defined.md`: the events "are total on every
state"). -/
def Obligations.EveryStepGoesOn : Prop :=
  (∀ (i : Instr) (s : State), ∃ t, exec i s = .next t) ∧ ∀ s : State, s.fault = none → ∃ t, step s = .next t

/-! ## Control transfer -/

/-- R120: return pops the call stack into `pc`; the entry stays in the array; an empty stack raises. -/
def Obligations.ReturnPops : Prop :=
  (∀ s : State, s.sp.val = 0 → Raises .ret s (.stackUnderflow s.pc (encode .ret))) ∧
  (∀ (s : State) (target : Word), 0 < s.sp.val → s.stack[s.sp.val - 1]? = some target →
    ∃ t, exec .ret s = .next t ∧ t.pc = target ∧ t.sp.val = s.sp.val - 1 ∧ OnlyChanges [.pc, .sp] s t)

/-- R121: jump sets `pc` to the absolute operand, unchecked. -/
def Obligations.JumpSetsPc : Prop :=
  ∀ (nnn : Addr12) (s : State), ∃ t, exec (.jp nnn) s = .next t ∧ t.pc.toNat = nnn.toNat ∧ OnlyChanges [.pc] s t

/-- R122: call pushes `pc + 2` and jumps; a full stack raises and writes nothing. -/
def Obligations.CallPushes : Prop :=
  (∀ (nnn : Addr12) (s : State), s.sp.val = Config.stackCapacity → Raises (.call nnn) s (.stackOverflow s.pc (encode (.call nnn)))) ∧
  (∀ (nnn : Addr12) (s : State), s.sp.val < Config.stackCapacity →
    ∃ t, exec (.call nnn) s = .next t ∧ t.pc.toNat = nnn.toNat ∧ t.sp.val = s.sp.val + 1 ∧
      t.stack[s.sp.val]? = some (s.pc + 2) ∧ (∀ j, j ≠ s.sp.val → t.stack[j]? = s.stack[j]?) ∧
      OnlyChanges [.pc, .sp, .stack] s t)

/-- R127: jump-with-offset adds `V[0]`, whatever the `x` nibble, without reduction. -/
def Obligations.JumpWithOffsetAddsV0 : Prop :=
  ∀ (nnn : Addr12) (s : State), ∃ t, exec (.jpV0 nnn) s = .next t ∧
    t.pc.toNat = nnn.toNat + (s.readV 0).toNat ∧ OnlyChanges [.pc] s t

/-- R123 to R126: the four skips compare two bytes and advance `pc` by 4 or by 2; nothing else changes. -/
def Obligations.SkipsCompare : Prop :=
  ∀ (s : State) (x y : RegIdx) (kk : Byte),
    (∃ t, exec (.seImm x kk) s = .next t ∧ OnlyChanges [.pc] s t ∧
      (s.readV x = kk → t.pc = s.pc + 4) ∧ (s.readV x ≠ kk → t.pc = s.pc + 2)) ∧
    (∃ t, exec (.sneImm x kk) s = .next t ∧ OnlyChanges [.pc] s t ∧
      (s.readV x ≠ kk → t.pc = s.pc + 4) ∧ (s.readV x = kk → t.pc = s.pc + 2)) ∧
    (∃ t, exec (.seReg x y) s = .next t ∧ OnlyChanges [.pc] s t ∧
      (s.readV x = s.readV y → t.pc = s.pc + 4) ∧ (s.readV x ≠ s.readV y → t.pc = s.pc + 2)) ∧
    (∃ t, exec (.sneReg x y) s = .next t ∧ OnlyChanges [.pc] s t ∧
      (s.readV x ≠ s.readV y → t.pc = s.pc + 4) ∧ (s.readV x = s.readV y → t.pc = s.pc + 2))

/-- R128: the legacy native-call form always raises `UnsupportedInstruction` with the raw word and `pc`. -/
def Obligations.LegacyCallRaises : Prop :=
  ∀ (nnn : Addr12) (s : State), Raises (.sys nnn) s (.unsupportedInstruction s.pc (encode (.sys nnn)))

/-- Call followed by return is an identity on `pc` modulo the `+ 2` advance and leaves the depth as it was: whatever the
subroutine did to the rest of the state (R120, R122). -/
def Obligations.CallThenReturn : Prop :=
  ∀ (nnn : Addr12) (s : State), s.sp.val < Config.stackCapacity →
    ∃ t, exec (.call nnn) s = .next t ∧
      ∀ u : State, u.sp = t.sp → u.stack = t.stack →
        ∃ v, exec .ret u = .next v ∧ v.pc = s.pc + 2 ∧ v.sp = s.sp ∧ OnlyChanges [.pc, .sp] u v

/-! ## Register instructions -/

/-- R140, R141: load-immediate and add-immediate, modulo 256, without flag. -/
def Obligations.ImmediateForms : Prop :=
  ∀ (s : State) (x : RegIdx) (kk : Byte),
    (∃ t, exec (.ldImm x kk) s = .next t ∧ t.readV x = kk ∧ t.pc = s.pc + 2 ∧
      OtherRegs (· = x) s t ∧ OnlyChanges [.pc, .V] s t) ∧
    (∃ t, exec (.addImm x kk) s = .next t ∧ (t.readV x).toNat = ((s.readV x).toNat + kk.toNat) % 256 ∧
      t.pc = s.pc + 2 ∧ OtherRegs (· = x) s t ∧ OnlyChanges [.pc, .V] s t)

/-- R142 to R145, R153: move, OR, AND, XOR, bit by bit, without flag. -/
def Obligations.MoveAndLogic : Prop :=
  ∀ (s : State) (x y : RegIdx),
    (∃ t, exec (.ldReg x y) s = .next t ∧ t.readV x = s.readV y ∧ t.pc = s.pc + 2 ∧
      OtherRegs (· = x) s t ∧ OnlyChanges [.pc, .V] s t) ∧
    (∃ t, exec (.orReg x y) s = .next t ∧
      (∀ b, (t.readV x).getLsbD b = ((s.readV x).getLsbD b || (s.readV y).getLsbD b)) ∧ t.pc = s.pc + 2 ∧
      OtherRegs (· = x) s t ∧ OnlyChanges [.pc, .V] s t) ∧
    (∃ t, exec (.andReg x y) s = .next t ∧
      (∀ b, (t.readV x).getLsbD b = ((s.readV x).getLsbD b && (s.readV y).getLsbD b)) ∧ t.pc = s.pc + 2 ∧
      OtherRegs (· = x) s t ∧ OnlyChanges [.pc, .V] s t) ∧
    (∃ t, exec (.xorReg x y) s = .next t ∧
      (∀ b, (t.readV x).getLsbD b = xor ((s.readV x).getLsbD b) ((s.readV y).getLsbD b)) ∧ t.pc = s.pc + 2 ∧
      OtherRegs (· = x) s t ∧ OnlyChanges [.pc, .V] s t)

/-- R148, R149, R151 with R147's order: add, subtract and subtract-reverse modulo 256. `VF` ends as the flag, computed
from the old operands, also when `x = 15`; otherwise `V[x]` holds the result. -/
def Obligations.ArithmeticWithFlag : Prop :=
  ∀ (s : State) (x y : RegIdx),
    let a := (s.readV x).toNat
    let b := (s.readV y).toNat
    (∃ t, exec (.addReg x y) s = .next t ∧ (x ≠ 15 → (t.readV x).toNat = (a + b) % 256) ∧
      (t.readV 15).toNat = (if a + b > 255 then 1 else 0) ∧ t.pc = s.pc + 2 ∧
      OtherRegs (fun r => r = x ∨ r = 15) s t ∧ OnlyChanges [.pc, .V] s t) ∧
    (∃ t, exec (.subReg x y) s = .next t ∧ (x ≠ 15 → (t.readV x).toNat = (a + 256 - b) % 256) ∧
      (t.readV 15).toNat = (if a ≥ b then 1 else 0) ∧ t.pc = s.pc + 2 ∧
      OtherRegs (fun r => r = x ∨ r = 15) s t ∧ OnlyChanges [.pc, .V] s t) ∧
    (∃ t, exec (.subnReg x y) s = .next t ∧ (x ≠ 15 → (t.readV x).toNat = (b + 256 - a) % 256) ∧
      (t.readV 15).toNat = (if b ≥ a then 1 else 0) ∧ t.pc = s.pc + 2 ∧
      OtherRegs (fun r => r = x ∨ r = 15) s t ∧ OnlyChanges [.pc, .V] s t)

/-- R150, R152 with R98's ignored `y`: the shifts act on `V[x]`, `VF` ends as the bit shifted out, whatever `y` is. -/
def Obligations.ShiftsByOne : Prop :=
  ∀ (s : State) (x y : RegIdx),
    let a := (s.readV x).toNat
    (∃ t, exec (.shr x y) s = .next t ∧ (x ≠ 15 → (t.readV x).toNat = a / 2) ∧ (t.readV 15).toNat = a % 2 ∧
      t.pc = s.pc + 2 ∧ OtherRegs (fun r => r = x ∨ r = 15) s t ∧ OnlyChanges [.pc, .V] s t) ∧
    (∃ t, exec (.shl x y) s = .next t ∧ (x ≠ 15 → (t.readV x).toNat = a * 2 % 256) ∧ (t.readV 15).toNat = a / 128 ∧
      t.pc = s.pc + 2 ∧ OtherRegs (fun r => r = x ∨ r = 15) s t ∧ OnlyChanges [.pc, .V] s t)

/-- R158: random draws one byte, whatever its value, and ANDs it with the mask; the old `V[x]` is no input, one draw is
consumed. The draw is the free value `Config.randomByte` of the state's draw number: nothing else is known of it. -/
def Obligations.RandomIsMasked : Prop :=
  ∀ (s : State) (x : RegIdx) (kk : Byte),
    ∃ t, exec (.rnd x kk) s = .next t ∧ t.readV x = Config.randomByte s.draws &&& kk ∧ t.readV x &&& ~~~kk = 0 ∧
      t.draws = s.draws + 1 ∧ t.pc = s.pc + 2 ∧ OtherRegs (· = x) s t ∧ OnlyChanges [.pc, .V, .draws] s t

/-- R22: an instruction that writes `VF` as a flag leaves exactly 0 or 1 in it; an instruction that neither does so nor
names `VF` as its destination leaves it alone. -/
def Obligations.FlagRegisterWriters : Prop :=
  ∀ (i : Instr) (s t : State), s.fault = none → exec i s = .next t → t.fault = none →
    (writesFlag i = true → t.VF = 0 ∨ t.VF = 1) ∧
    (writesFlag i = false → namesVF i = false → t.VF = s.VF)

/-! ## Index register and memory -/

/-- R170, R171, R172: load-index, add-to-index modulo 2^16 without flag or fault, font-address of the low nibble. -/
def Obligations.IndexInstructions : Prop :=
  ∀ (s : State) (x : RegIdx) (nnn : Addr12),
    (∃ t, exec (.ldI nnn) s = .next t ∧ t.I.toNat = nnn.toNat ∧ t.pc = s.pc + 2 ∧ OnlyChanges [.pc, .I] s t) ∧
    (∃ t, exec (.addIVx x) s = .next t ∧ t.I.toNat = (s.I.toNat + (s.readV x).toNat) % 65536 ∧ t.pc = s.pc + 2 ∧
      OnlyChanges [.pc, .I] s t) ∧
    (∃ t, exec (.ldFVx x) s = .next t ∧ t.I.toNat = 5 * ((s.readV x).toNat % 16) ∧ t.pc = s.pc + 2 ∧
      OnlyChanges [.pc, .I] s t)

/-- R173: store-bcd writes the three decimal digits at `I`, `I + 1`, `I + 2`, one byte each, and nothing else; out of range
it raises with the lowest offending address and writes no byte. -/
def Obligations.StoreBcd : Prop :=
  (∀ (s : State) (x : RegIdx), s.I.toNat + 2 ≥ Config.memSize →
    Raises (.ldBVx x) s (.memoryFault (max s.I.toNat Config.memSize) s.pc (encode (.ldBVx x)))) ∧
  (∀ (s : State) (x : RegIdx), s.mem.wf = true → s.I.toNat + 2 < Config.memSize →
    ∃ t, exec (.ldBVx x) s = .next t ∧
      (t.mem.read s.I.toNat).toNat = (s.readV x).toNat / 100 ∧
      (t.mem.read (s.I.toNat + 1)).toNat = (s.readV x).toNat / 10 % 10 ∧
      (t.mem.read (s.I.toNat + 2)).toNat = (s.readV x).toNat % 10 ∧
      (∀ a, (a < s.I.toNat ∨ s.I.toNat + 3 ≤ a) → t.mem.read a = s.mem.read a) ∧
      t.pc = s.pc + 2 ∧ OnlyChanges [.pc, .mem] s t)

/-- R174: store-registers writes `V[0]` to `V[x]` from `I` upward and advances `I` past them; out of range it raises and
neither a byte nor `I` changes. -/
def Obligations.StoreRegisters : Prop :=
  (∀ (s : State) (x : RegIdx), s.I.toNat + x.toNat ≥ Config.memSize →
    Raises (.storeRegs x) s (.memoryFault (max s.I.toNat Config.memSize) s.pc (encode (.storeRegs x)))) ∧
  (∀ (s : State) (x : RegIdx), s.mem.wf = true → s.I.toNat + x.toNat < Config.memSize →
    ∃ t, exec (.storeRegs x) s = .next t ∧
      (∀ r : RegIdx, r.toNat ≤ x.toNat → t.mem.read (s.I.toNat + r.toNat) = s.readV r) ∧
      (∀ a, (a < s.I.toNat ∨ s.I.toNat + x.toNat + 1 ≤ a) → t.mem.read a = s.mem.read a) ∧
      t.I.toNat = s.I.toNat + x.toNat + 1 ∧ t.pc = s.pc + 2 ∧ OnlyChanges [.pc, .I, .mem] s t)

/-- R175: load-registers reads `V[0]` to `V[x]` from `I` upward and advances `I` past them; out of range it raises and
neither a register nor `I` changes. -/
def Obligations.LoadRegisters : Prop :=
  (∀ (s : State) (x : RegIdx), s.I.toNat + x.toNat ≥ Config.memSize →
    Raises (.loadRegs x) s (.memoryFault (max s.I.toNat Config.memSize) s.pc (encode (.loadRegs x)))) ∧
  (∀ (s : State) (x : RegIdx), s.I.toNat + x.toNat < Config.memSize →
    ∃ t, exec (.loadRegs x) s = .next t ∧
      (∀ r : RegIdx, r.toNat ≤ x.toNat → t.readV r = s.mem.read (s.I.toNat + r.toNat)) ∧
      OtherRegs (fun r => r.toNat ≤ x.toNat) s t ∧
      t.I.toNat = s.I.toNat + x.toNat + 1 ∧ t.pc = s.pc + 2 ∧ OnlyChanges [.pc, .I, .V] s t)

/-- R73 with the spec's decision D31: both storing instructions, `Fx55` and `Fx33`, are seen by every later fetch, of any
address: of a word both of whose bytes were stored, of one only half stored, and of one not stored to at all. -/
def Obligations.StoresAreFetched : Prop :=
  (∀ (s : State) (x : RegIdx), s.mem.wf = true → s.I.toNat + x.toNat < Config.memSize →
    ∃ t, exec (.storeRegs x) s = .next t ∧
      FetchSeesStore s t (x.toNat + 1) (fun k => s.readV (BitVec.ofNat 4 k))) ∧
  (∀ (s : State) (x : RegIdx), s.mem.wf = true → s.I.toNat + 2 < Config.memSize →
    ∃ t, exec (.ldBVx x) s = .next t ∧
      FetchSeesStore s t 3 (fun k => BitVec.ofNat 8 ((s.readV x).toNat / 10 ^ (2 - k) % 10)))

/-! ## Display -/

/-- R190: clear-screen turns every cell off and sets the dirty flag. -/
def Obligations.ClearScreen : Prop :=
  ∀ s : State, ∃ t, exec .cls s = .next t ∧ (∀ r c, Grid.cell t.disp r c = false) ∧ t.dirty = true ∧
    t.pc = s.pc + 2 ∧ OnlyChanges [.pc, .disp, .dirty] s t

/-- R191, R192: the sprite's loops draw the pointwise XOR of the sprite, wrapped at both edges, onto the grid; `VF` is 1
exactly when a cell went from on to off; `dirty` is set always, `n = 0` included; out of range it raises and nothing
changes. -/
def Obligations.DrawSprite : Prop :=
  (∀ (s : State) (x y : RegIdx) (n : Nibble), n.toNat > 0 → s.I.toNat + n.toNat - 1 ≥ Config.memSize →
    Raises (.drw x y n) s (.memoryFault (max s.I.toNat Config.memSize) s.pc (encode (.drw x y n)))) ∧
  (∀ (s : State) (x y : RegIdx) (n : Nibble), (n.toNat = 0 ∨ s.I.toNat + n.toNat - 1 < Config.memSize) →
    ∃ t, exec (.drw x y n) s = .next t ∧
      (∀ r c, Covers s x y n r c → Grid.cell t.disp r c = !(Grid.cell s.disp r c)) ∧
      (∀ r c, ¬ Covers s x y n r c → Grid.cell t.disp r c = Grid.cell s.disp r c) ∧
      ((∃ r c, Covers s x y n r c ∧ Grid.cell s.disp r c = true) → t.readV 15 = 1) ∧
      ((∀ r c, Covers s x y n r c → Grid.cell s.disp r c = false) → t.readV 15 = 0) ∧
      t.dirty = true ∧ t.pc = s.pc + 2 ∧ OtherRegs (· = 15) s t ∧ OnlyChanges [.pc, .V, .disp, .dirty] s t)

/-- Drawing the same sprite twice at the same place restores the grid, and the second draw sets `VF` exactly when the
sprite has a 1 bit, from an initially clear grid (R192: "Drawing the same sprite twice at the same place restores the
grid"). -/
def Obligations.DrawTwiceErases : Prop :=
  ∀ (s t u : State) (x y : RegIdx) (n : Nibble), x ≠ 15 → y ≠ 15 → s.fault = none →
    (∀ r c, Grid.cell s.disp r c = false) →
    exec (.drw x y n) s = .next t → t.fault = none → exec (.drw x y n) t = .next u →
      u.disp = s.disp ∧ t.VF = 0 ∧ (u.VF = 1 ↔ ∃ r c, Covers s x y n r c)

/-! ## Keypad, timers, host events -/

/-- R200, R201: the key skips test the latch named by the value of `V[x]`; a value above 15 raises. -/
def Obligations.KeySkips : Prop :=
  (∀ (s : State) (x : RegIdx), (s.readV x).toNat > 15 →
    Raises (.skp x) s (.keyIndexFault (s.readV x) s.pc (encode (.skp x))) ∧
    Raises (.sknp x) s (.keyIndexFault (s.readV x) s.pc (encode (.sknp x)))) ∧
  (∀ (s : State) (x : RegIdx) (k : KeyIdx), (s.readV x).toNat = k.toNat →
    (∃ t, exec (.skp x) s = .next t ∧ t.pc = (if s.readKey k = true then s.pc + 4 else s.pc + 2) ∧
      OnlyChanges [.pc] s t) ∧
    (∃ t, exec (.sknp x) s = .next t ∧ t.pc = (if s.readKey k = false then s.pc + 4 else s.pc + 2) ∧
      OnlyChanges [.pc] s t))

/-- R203: the entry step of wait-for-key only records the destination register. -/
def Obligations.WaitEntry : Prop :=
  ∀ (s : State) (x : RegIdx), ∃ t, exec (.ldVxK x) s = .next t ∧ t.awaiting = .waiting x ∧ t.pc = s.pc ∧
    OnlyChanges [.awaiting] s t

/-- R204: a waiting step fetches nothing; with no key down nothing changes, else the least key down goes to the register,
the wait ends and `pc` advances by 2. -/
def Obligations.WaitingStep : Prop :=
  ∀ (s : State) (r : RegIdx), s.fault = none → s.awaiting = .waiting r →
    ((∀ k, s.readKey k = false) → step s = .next s) ∧
    (∀ k : KeyIdx, s.readKey k = true → (∀ j : KeyIdx, j.toNat < k.toNat → s.readKey j = false) →
      ∃ t, step s = .next t ∧ (t.readV r).toNat = k.toNat ∧ t.awaiting = .notWaiting ∧ t.pc = s.pc + 2 ∧
        OtherRegs (· = r) s t ∧ OnlyChanges [.pc, .V, .awaiting] s t)

/-- With no key down any number of steps leaves a waiting machine as it is, and none faults (R204: "repeated `step` calls … must not advance
the program counter or alter any register"). -/
def Obligations.WaitHolds : Prop :=
  ∀ (k : Nat) (s : State) (r : RegIdx), s.fault = none → s.awaiting = .waiting r → (∀ j, s.readKey j = false) →
    SafeRun k s s

/-- R205, R206: a register takes `DT`, `DT` takes a register. -/
def Obligations.DelayTimerCopies : Prop :=
  ∀ (s : State) (x : RegIdx),
    (∃ t, exec (.ldVxDT x) s = .next t ∧ t.readV x = s.DT ∧ t.pc = s.pc + 2 ∧ OtherRegs (· = x) s t ∧
      OnlyChanges [.pc, .V] s t) ∧
    (∃ t, exec (.ldDTVx x) s = .next t ∧ t.DT = s.readV x ∧ t.pc = s.pc + 2 ∧ OnlyChanges [.pc, .DT] s t)

/-- R207 with the spec's decision D22: `ST` takes a register, and the tone follows at once. -/
def Obligations.SoundTimerCopy : Prop :=
  ∀ (s : State) (x : RegIdx),
    ∃ t, exec (.ldSTVx x) s = .next t ∧ t.ST = s.readV x ∧ tone t = decide (s.readV x ≠ 0) ∧ t.pc = s.pc + 2 ∧
      OnlyChanges [.pc, .ST] s t

/-- R236, R237 with the spec's decision D22: a tick decrements each timer, clamped at 0, touches nothing else, and signals
`tone_stop` exactly when it takes `ST` from 1 to 0; the tone is on exactly while `ST > 0`. -/
def Obligations.TickCountsDown : Prop :=
  ∀ s : State,
    (tick s).1.DT.toNat = s.DT.toNat - 1 ∧ (tick s).1.ST.toNat = s.ST.toNat - 1 ∧
    ((tick s).2 = true ↔ s.ST.toNat = 1) ∧ (tone s = true ↔ 0 < s.ST.toNat) ∧ OnlyChanges [.DT, .ST] s (tick s).1

/-- R243, R245: `key_set` sets one latch and nothing else; the display is read row-major and reading changes nothing. -/
def Obligations.KeySetAndDisplayRead : Prop :=
  ∀ s : State,
    (∀ (k : KeyIdx) (b : Bool), (keySet k b s).readKey k = b ∧
      (∀ j, j ≠ k → (keySet k b s).readKey j = s.readKey j) ∧ OnlyChanges [.key] s (keySet k b s)) ∧
    ((readDisplay s).length = Config.displayHeight * Config.displayWidth ∧
      ∀ (r : Fin Config.displayHeight) (c : Fin Config.displayWidth),
        (readDisplay s)[r.val * Config.displayWidth + c.val]? = some (Grid.cell s.disp r c)) ∧
    eventEffect .readDisplay s = (s, .display (readDisplay s))

/-- R244, R237, R246 with the spec's decisions D23, D22 and D15: `dirty_ack` returns the flag and clears it; the reads of
the tone and of the latch change nothing. -/
def Obligations.AcknowledgeAndReads : Prop :=
  ∀ s : State,
    eventEffect .dirtyAck s = ((dirtyAck s).1, .wasDirty s.dirty) ∧ (dirtyAck s).1.dirty = false ∧
    OnlyChanges [.dirty] s (dirtyAck s).1 ∧
    eventEffect .readTone s = (s, .toneLevel (decide (0 < s.ST.toNat))) ∧ eventEffect .readFault s = (s, .faultLatch s.fault)

/-- R263: `load` places the image at `PROG_START` verbatim, byte `i` at `PROG_START + i`, drops what exceeds memory, and
changes nothing else. -/
def Obligations.LoadPlacesImage : Prop :=
  ∀ (image : List Byte) (s : State), s.mem.wf = true →
    (∀ i b, image[i]? = some b → 0x200 + i < 4096 → (load image s).mem.read (0x200 + i) = b) ∧
    (∀ a, (a < 0x200 ∨ 0x200 + image.length ≤ a ∨ 4096 ≤ a) → (load image s).mem.read a = s.mem.read a) ∧
    OnlyChanges [.mem] s (load image s)

/-- R36, R260 with the spec's decisions D15, D18 and D23: reset puts every field of the Machine State at its reset value,
from any state, and returns nothing. -/
def Obligations.ResetValues : Prop :=
  (∀ s : State, eventEffect .reset s = (resetEvent s, .nothing)) ∧
  ∀ t : State, (t = State.reset ∨ ∃ s, t = resetEvent s) →
    (∀ r, t.readV r = 0) ∧ t.I = 0 ∧ t.pc = 0x200 ∧ t.sp.val = 0 ∧ (∀ j, j < 16 → t.stack[j]? = some 0) ∧
    t.DT = 0 ∧ t.ST = 0 ∧ (∀ k, t.readKey k = false) ∧ (∀ r c, Grid.cell t.disp r c = false) ∧ t.dirty = false ∧
    t.awaiting = .notWaiting ∧ t.fault = none ∧
    (∀ i b, Config.fontData[i]? = some b → t.mem.read i = b) ∧ (∀ a, 80 ≤ a → t.mem.read a = 0)

/-! ## Whole-machine rules -/

/-- R25: how each instruction leaves `pc`, in the natural numbers: no sum wraps (R26). A step that raises a fault leaves it
unchanged; a waiting step advances it by 2 exactly when it finds a key. -/
def Obligations.PcAfterEachInstruction : Prop :=
  (∀ (i : Instr) (s t : State), fetchable s.pc = true → s.fault = none → exec i s = .next t →
    (t.fault = none → t.pc.toNat = newPc i s) ∧ (t.fault ≠ none → t.pc = s.pc)) ∧
  (∀ s t : State, s.fault = none → step s = .next t → t.fault ≠ none → t.pc = s.pc) ∧
  (∀ (s t : State) (r : RegIdx), s.awaiting = .waiting r → step s = .next t →
    t.pc = s.pc + if ∃ k, s.readKey k = true then 2 else 0)

/-- The access table of R35, read as a promise: an instruction not named in a row leaves that part of the state unchanged,
whatever the operands, faults included. -/
def Obligations.WriteAccessTable : Prop :=
  ∀ (i : Instr) (s t : State), exec i s = .next t → OnlyChanges (mayWrite i) s t

/-- Timers and keys are polled (R28, R230), the draws of the random source being the same (log 6): the timers influence nothing but through `LD Vx, DT`, and the keypad influences
nothing but through the key skips and the waiting step. -/
def Obligations.InputsAreOnlyPolled : Prop :=
  (∀ (i : Instr) (s : State) (d e : Byte), (∀ x, i ≠ .ldVxDT x) →
    ∃ t u, exec i s = .next t ∧ exec i { s with DT := d, ST := e } = .next u ∧ OnlyChanges [.DT, .ST] t u) ∧
  (∀ (i : Instr) (s : State) (keys : Vector Bool 16), (∀ x, i ≠ .skp x) → (∀ x, i ≠ .sknp x) →
    ∃ t u, exec i s = .next t ∧ exec i { s with key := keys } = .next u ∧ OnlyChanges [.key] t u)

/-- The invariant holds after reset. -/
def Obligations.ResetMeetsInvariant : Prop := MachineInvariant State.reset

/-- Every step keeps the invariant: memory canonical, live stack entries return addresses, `pc` never wrapped, the wait and
the latch exclusive, the latched fault at `pc` (R26, R27, R34, R90, R120, R224). -/
def Obligations.StepKeepsInvariant : Prop :=
  ∀ s t : State, MachineInvariant s → step s = .next t → MachineInvariant t

/-- Every event of every agent keeps the invariant, so every session does from any phase on, and a session from the start
meets it from its first event on, whatever the state before `reset` was (R6, R240, R247, R260). -/
def Obligations.SessionKeepsInvariant : Prop :=
  (∀ (e : Event) (s : State), MachineInvariant s → MachineInvariant (eventEffect e s).1) ∧
  (∀ (es : List Event) (p q : Phase) (s t : State) (rs : List Response),
    session es p s = some (q, t, rs) → MachineInvariant s → MachineInvariant t) ∧
  (∀ (e : Event) (es : List Event) (q : Phase) (s t : State) (rs : List Response),
    session (e :: es) .unborn s = some (q, t, rs) → MachineInvariant t)

/-- R247, D24: which events the host may perform when. Before the first `reset` there is only `reset`; `load` has a move
only between a `reset` and the first `step`; every other event always has one. A move has the event's effect, a `step` ends
the time to load, a `reset` begins it anew, and nothing else changes the phase. -/
def Obligations.HostDutiesGateMoves : Prop :=
  ∀ (p : Phase) (e : Event) (s : State),
    ((perform p e s).isSome = true ↔
      e = .reset ∨ (p = .fresh ∧ ∃ image, e = .load image) ∨ (p ≠ .unborn ∧ ∀ image, e ≠ .load image)) ∧
    ∀ (q : Phase) (t : State) (r : Response), perform p e s = some (q, t, r) →
      (t, r) = eventEffect e s ∧ (e = .reset → q = .fresh) ∧ (e = .step → q = .running) ∧
      (e ≠ .reset → e ≠ .step → q = p)

/-- R247, D24 over whole sessions: a session from the start can go on with a `load` exactly when a `reset` has come and no
`step` since; it begins with a `reset`; and it has a run exactly when the host keeps its duties. -/
def Obligations.LoadOnlyBeforeFirstStep : Prop :=
  ∀ (es : List Event) (s : State),
    (∀ image : List Byte, (session (es ++ [.load image]) .unborn s).isSome = true ↔
      (session es .unborn s).isSome = true ∧ ∃ before since, es = before ++ .reset :: since ∧ .step ∉ since) ∧
    ((session es .unborn s).isSome = true → es = [] ∨ ∃ rest, es = .reset :: rest) ∧
    (session es .unborn s).isSome = legalSession es

/-- R268: a program that has ended, a jump to itself, stays as it is for any number of steps, none of which faults. -/
def Obligations.EndedStaysEnded : Prop :=
  ∀ (k : Nat) (s : State), Ended s → SafeRun k s s
end

