-- ==== Sys2Proof/Laws/Decode.lean ====
section
/-! SUPPORT. The bits of each word format, the fields of each, and a word from its fields: what the round trips of decoder and encoder rest on. -/

namespace Sys2Proof

theorem getLsbD_wordNNN (op : Nibble) (a : Addr12) (i : Nat) :
    (wordNNN op a).getLsbD i = if i < 12 then a.getLsbD i else op.getLsbD (i - 12) :=
  BitVec.getLsbD_append.trans (by split <;> simp_all)

theorem getLsbD_wordXKK (op : Nibble) (x : RegIdx) (kk : Byte) (i : Nat) :
    (wordXKK op x kk).getLsbD i
      = if i < 8 then kk.getLsbD i else if i < 12 then x.getLsbD (i - 8) else op.getLsbD (i - 12) := by
  refine BitVec.getLsbD_append.trans ?_
  rw [BitVec.getLsbD_append]
  grind

theorem getLsbD_wordXYN (op : Nibble) (x y : RegIdx) (n : Nibble) (i : Nat) :
    (wordXYN op x y n).getLsbD i = if i < 4 then n.getLsbD i else if i < 8 then y.getLsbD (i - 4)
      else if i < 12 then x.getLsbD (i - 8) else op.getLsbD (i - 12) := by
  refine BitVec.getLsbD_append.trans ?_
  rw [BitVec.getLsbD_append, BitVec.getLsbD_append]
  grind

/-! ### The fields of each format -/

@[simp] theorem fieldOp_wordNNN (op : Nibble) (a : Addr12) : fieldOp (wordNNN op a) = op := by
  ext i hi; simp [fieldOp, getLsbD_wordNNN, hi]
@[simp] theorem fieldNNN_wordNNN (op : Nibble) (a : Addr12) : fieldNNN (wordNNN op a) = a := by
  ext i hi; simp [fieldNNN, getLsbD_wordNNN, hi]

@[simp] theorem fieldOp_wordXKK (op : Nibble) (x : RegIdx) (kk : Byte) : fieldOp (wordXKK op x kk) = op := by
  ext i hi; simp [fieldOp, getLsbD_wordXKK, hi, show ¬ 12 + i < 8 by omega]
@[simp] theorem fieldX_wordXKK (op : Nibble) (x : RegIdx) (kk : Byte) : fieldX (wordXKK op x kk) = x := by
  ext i hi; simp [fieldX, getLsbD_wordXKK, hi, show 8 + i < 12 by omega]
@[simp] theorem fieldKK_wordXKK (op : Nibble) (x : RegIdx) (kk : Byte) : fieldKK (wordXKK op x kk) = kk := by
  ext i hi; simp [fieldKK, getLsbD_wordXKK, hi]

@[simp] theorem fieldOp_wordXYN (op : Nibble) (x y : RegIdx) (n : Nibble) : fieldOp (wordXYN op x y n) = op := by
  ext i hi; simp [fieldOp, getLsbD_wordXYN, hi, show ¬ 12 + i < 8 by omega, show ¬ 12 + i < 4 by omega]
@[simp] theorem fieldX_wordXYN (op : Nibble) (x y : RegIdx) (n : Nibble) : fieldX (wordXYN op x y n) = x := by
  ext i hi; simp [fieldX, getLsbD_wordXYN, hi, show ¬ 8 + i < 8 by omega, show ¬ 8 + i < 4 by omega, show 8 + i < 12 by omega]
@[simp] theorem fieldY_wordXYN (op : Nibble) (x y : RegIdx) (n : Nibble) : fieldY (wordXYN op x y n) = y := by
  ext i hi
  simp [fieldY, getLsbD_wordXYN, hi, show 4 + i < 8 by omega]
@[simp] theorem fieldN_wordXYN (op : Nibble) (x y : RegIdx) (n : Nibble) : fieldN (wordXYN op x y n) = n := by
  ext i hi; simp [fieldN, getLsbD_wordXYN, hi]

/-! ### A word from its fields -/

theorem word_of_fieldsNNN (w : Word) : wordNNN (fieldOp w) (fieldNNN w) = w :=
  BitVec.eq_of_getLsbD_eq fun i hi => by
    rw [getLsbD_wordNNN]
    split
    · next h => simp [fieldNNN, h]
    · next h => simp [fieldOp, show i - 12 < 4 by omega, show 12 + (i - 12) = i by omega]

theorem word_of_fieldsXKK (w : Word) : wordXKK (fieldOp w) (fieldX w) (fieldKK w) = w :=
  BitVec.eq_of_getLsbD_eq fun i hi => by
    rw [getLsbD_wordXKK]
    split
    · next h => simp [fieldKK, h]
    · split
      · next h h' => simp [fieldX, show i - 8 < 4 by omega, show 8 + (i - 8) = i by omega]
      · next h h' => simp [fieldOp, show i - 12 < 4 by omega, show 12 + (i - 12) = i by omega]

theorem word_of_fieldsXYN (w : Word) : wordXYN (fieldOp w) (fieldX w) (fieldY w) (fieldN w) = w :=
  BitVec.eq_of_getLsbD_eq fun i hi => by
    rw [getLsbD_wordXYN]
    split
    · next h => simp [fieldN, h]
    · split
      · next h h' => simp [fieldY, show i - 4 < 4 by omega, show 4 + (i - 4) = i by omega]
      · split
        · next h h' h'' => simp [fieldX, show i - 8 < 4 by omega, show 8 + (i - 8) = i by omega]
        · next h h' h'' => simp [fieldOp, show i - 12 < 4 by omega, show 12 + (i - 12) = i by omega]

/-- A word is read back from the two bytes it lies in memory as (`20_memory.md` R62). -/
theorem wordOfBytes_bytesOfWord (w : Word) : wordOfBytes (highByte w) (lowByte w) = w :=
  BitVec.eq_of_getLsbD_eq fun i hi => by
    refine BitVec.getLsbD_append.trans ?_
    by_cases h : i < 8
    · simp [lowByte, h]
    · simp [highByte, h, show i - 8 < 8 by omega, show 8 + (i - 8) = i by omega]

/-! ### From a row's mask to the fields it fixes (R96) -/

theorem fieldOp_and (w m : Word) : fieldOp (w &&& m) = fieldOp w &&& fieldOp m := BitVec.extractLsb'_and ..
theorem fieldN_and (w m : Word) : fieldN (w &&& m) = fieldN w &&& fieldN m := BitVec.extractLsb'_and ..
theorem fieldKK_and (w m : Word) : fieldKK (w &&& m) = fieldKK w &&& fieldKK m := BitVec.extractLsb'_and ..

/-- A word of a row with mask `F000` has the row's family. -/
theorem fieldOp_of_mask {w v : Word} (h : w &&& 0xF000 = v) : fieldOp w = fieldOp v := by
  rw [← h, fieldOp_and]
  exact BitVec.and_allOnes.symm

/-- A word of a row with mask `F00F` has the row's family and low nibble. -/
theorem fields_of_mask_n {w v : Word} (h : w &&& 0xF00F = v) : fieldOp w = fieldOp v ∧ fieldN w = fieldN v := by
  rw [← h, fieldOp_and, fieldN_and]
  exact ⟨BitVec.and_allOnes.symm, BitVec.and_allOnes.symm⟩

/-- A word of a row with mask `F0FF` has the row's family and low byte. -/
theorem fields_of_mask_kk {w v : Word} (h : w &&& 0xF0FF = v) : fieldOp w = fieldOp v ∧ fieldKK w = fieldKK v := by
  rw [← h, fieldOp_and, fieldKK_and]
  exact ⟨BitVec.and_allOnes.symm, BitVec.and_allOnes.symm⟩

/-- A nibble is one of sixteen. -/
theorem nibble_cases (o : Nibble) : o = 0 ∨ o = 1 ∨ o = 2 ∨ o = 3 ∨ o = 4 ∨ o = 5 ∨ o = 6 ∨ o = 7 ∨ o = 8 ∨ o = 9 ∨
    o = 10 ∨ o = 11 ∨ o = 12 ∨ o = 13 ∨ o = 14 ∨ o = 15 := by
  revert o; decide

/-- Masking a word written by fields: the mask of a row acts field by field. -/
theorem wordXKK_and (o o' : Nibble) (x x' : RegIdx) (k k' : Byte) :
    wordXKK o x k &&& wordXKK o' x' k' = wordXKK (o &&& o') (x &&& x') (k &&& k') := by
  apply BitVec.eq_of_getLsbD_eq
  intro i _
  rw [BitVec.getLsbD_and, getLsbD_wordXKK, getLsbD_wordXKK, getLsbD_wordXKK]
  split
  · rw [BitVec.getLsbD_and]
  · split <;> rw [BitVec.getLsbD_and]

end Sys2Proof
end

