-- ==== Sys2Proof/Laws/State.lean ====
section
/-! SUPPORT. One lemma per field per update of the state, and what a register read gives after each: later proofs cite these instead of unfolding a record update. -/

namespace Sys2Proof.Machine.State

variable (s : State)

/-! ### `writeV` -/

@[simp] theorem writeV_I (x : RegIdx) (b : Byte) : (s.writeV x b).I = s.I := rfl
@[simp] theorem writeV_pc (x : RegIdx) (b : Byte) : (s.writeV x b).pc = s.pc := rfl
@[simp] theorem writeV_stack (x : RegIdx) (b : Byte) : (s.writeV x b).stack = s.stack := rfl
@[simp] theorem writeV_sp (x : RegIdx) (b : Byte) : (s.writeV x b).sp = s.sp := rfl
@[simp] theorem writeV_DT (x : RegIdx) (b : Byte) : (s.writeV x b).DT = s.DT := rfl
@[simp] theorem writeV_ST (x : RegIdx) (b : Byte) : (s.writeV x b).ST = s.ST := rfl
@[simp] theorem writeV_key (x : RegIdx) (b : Byte) : (s.writeV x b).key = s.key := rfl
@[simp] theorem writeV_disp (x : RegIdx) (b : Byte) : (s.writeV x b).disp = s.disp := rfl
@[simp] theorem writeV_dirty (x : RegIdx) (b : Byte) : (s.writeV x b).dirty = s.dirty := rfl
@[simp] theorem writeV_awaiting (x : RegIdx) (b : Byte) : (s.writeV x b).awaiting = s.awaiting := rfl
@[simp] theorem writeV_fault (x : RegIdx) (b : Byte) : (s.writeV x b).fault = s.fault := rfl
@[simp] theorem writeV_mem (x : RegIdx) (b : Byte) : (s.writeV x b).mem = s.mem := rfl
@[simp] theorem writeV_draws (x : RegIdx) (b : Byte) : (s.writeV x b).draws = s.draws := rfl

/-! ### `writeVF` -/

@[simp] theorem writeVF_I (b : Byte) : (s.writeVF b).I = s.I := rfl
@[simp] theorem writeVF_pc (b : Byte) : (s.writeVF b).pc = s.pc := rfl
@[simp] theorem writeVF_stack (b : Byte) : (s.writeVF b).stack = s.stack := rfl
@[simp] theorem writeVF_sp (b : Byte) : (s.writeVF b).sp = s.sp := rfl
@[simp] theorem writeVF_DT (b : Byte) : (s.writeVF b).DT = s.DT := rfl
@[simp] theorem writeVF_ST (b : Byte) : (s.writeVF b).ST = s.ST := rfl
@[simp] theorem writeVF_key (b : Byte) : (s.writeVF b).key = s.key := rfl
@[simp] theorem writeVF_disp (b : Byte) : (s.writeVF b).disp = s.disp := rfl
@[simp] theorem writeVF_dirty (b : Byte) : (s.writeVF b).dirty = s.dirty := rfl
@[simp] theorem writeVF_awaiting (b : Byte) : (s.writeVF b).awaiting = s.awaiting := rfl
@[simp] theorem writeVF_fault (b : Byte) : (s.writeVF b).fault = s.fault := rfl
@[simp] theorem writeVF_mem (b : Byte) : (s.writeVF b).mem = s.mem := rfl
@[simp] theorem writeVF_draws (b : Byte) : (s.writeVF b).draws = s.draws := rfl

/-! ### `writeI` -/

@[simp] theorem writeI_V (a : Word) : (s.writeI a).V = s.V := rfl
@[simp] theorem writeI_pc (a : Word) : (s.writeI a).pc = s.pc := rfl
@[simp] theorem writeI_stack (a : Word) : (s.writeI a).stack = s.stack := rfl
@[simp] theorem writeI_sp (a : Word) : (s.writeI a).sp = s.sp := rfl
@[simp] theorem writeI_DT (a : Word) : (s.writeI a).DT = s.DT := rfl
@[simp] theorem writeI_ST (a : Word) : (s.writeI a).ST = s.ST := rfl
@[simp] theorem writeI_key (a : Word) : (s.writeI a).key = s.key := rfl
@[simp] theorem writeI_disp (a : Word) : (s.writeI a).disp = s.disp := rfl
@[simp] theorem writeI_dirty (a : Word) : (s.writeI a).dirty = s.dirty := rfl
@[simp] theorem writeI_awaiting (a : Word) : (s.writeI a).awaiting = s.awaiting := rfl
@[simp] theorem writeI_fault (a : Word) : (s.writeI a).fault = s.fault := rfl
@[simp] theorem writeI_mem (a : Word) : (s.writeI a).mem = s.mem := rfl
@[simp] theorem writeI_draws (a : Word) : (s.writeI a).draws = s.draws := rfl

/-! ### `jump` -/

@[simp] theorem jump_V (a : Word) : (s.jump a).V = s.V := rfl
@[simp] theorem jump_I (a : Word) : (s.jump a).I = s.I := rfl
@[simp] theorem jump_stack (a : Word) : (s.jump a).stack = s.stack := rfl
@[simp] theorem jump_sp (a : Word) : (s.jump a).sp = s.sp := rfl
@[simp] theorem jump_DT (a : Word) : (s.jump a).DT = s.DT := rfl
@[simp] theorem jump_ST (a : Word) : (s.jump a).ST = s.ST := rfl
@[simp] theorem jump_key (a : Word) : (s.jump a).key = s.key := rfl
@[simp] theorem jump_disp (a : Word) : (s.jump a).disp = s.disp := rfl
@[simp] theorem jump_dirty (a : Word) : (s.jump a).dirty = s.dirty := rfl
@[simp] theorem jump_awaiting (a : Word) : (s.jump a).awaiting = s.awaiting := rfl
@[simp] theorem jump_fault (a : Word) : (s.jump a).fault = s.fault := rfl
@[simp] theorem jump_mem (a : Word) : (s.jump a).mem = s.mem := rfl
@[simp] theorem jump_draws (a : Word) : (s.jump a).draws = s.draws := rfl

/-! ### `advance` -/

@[simp] theorem advance_V : (s.advance).V = s.V := rfl
@[simp] theorem advance_I : (s.advance).I = s.I := rfl
@[simp] theorem advance_stack : (s.advance).stack = s.stack := rfl
@[simp] theorem advance_sp : (s.advance).sp = s.sp := rfl
@[simp] theorem advance_DT : (s.advance).DT = s.DT := rfl
@[simp] theorem advance_ST : (s.advance).ST = s.ST := rfl
@[simp] theorem advance_key : (s.advance).key = s.key := rfl
@[simp] theorem advance_disp : (s.advance).disp = s.disp := rfl
@[simp] theorem advance_dirty : (s.advance).dirty = s.dirty := rfl
@[simp] theorem advance_awaiting : (s.advance).awaiting = s.awaiting := rfl
@[simp] theorem advance_fault : (s.advance).fault = s.fault := rfl
@[simp] theorem advance_mem : (s.advance).mem = s.mem := rfl
@[simp] theorem advance_draws : (s.advance).draws = s.draws := rfl

/-! ### `skipIf` -/

@[simp] theorem skipIf_V (c : Bool) : (s.skipIf c).V = s.V := by cases c <;> rfl
@[simp] theorem skipIf_I (c : Bool) : (s.skipIf c).I = s.I := by cases c <;> rfl
@[simp] theorem skipIf_stack (c : Bool) : (s.skipIf c).stack = s.stack := by cases c <;> rfl
@[simp] theorem skipIf_sp (c : Bool) : (s.skipIf c).sp = s.sp := by cases c <;> rfl
@[simp] theorem skipIf_DT (c : Bool) : (s.skipIf c).DT = s.DT := by cases c <;> rfl
@[simp] theorem skipIf_ST (c : Bool) : (s.skipIf c).ST = s.ST := by cases c <;> rfl
@[simp] theorem skipIf_key (c : Bool) : (s.skipIf c).key = s.key := by cases c <;> rfl
@[simp] theorem skipIf_disp (c : Bool) : (s.skipIf c).disp = s.disp := by cases c <;> rfl
@[simp] theorem skipIf_dirty (c : Bool) : (s.skipIf c).dirty = s.dirty := by cases c <;> rfl
@[simp] theorem skipIf_awaiting (c : Bool) : (s.skipIf c).awaiting = s.awaiting := by cases c <;> rfl
@[simp] theorem skipIf_fault (c : Bool) : (s.skipIf c).fault = s.fault := by cases c <;> rfl
@[simp] theorem skipIf_mem (c : Bool) : (s.skipIf c).mem = s.mem := by cases c <;> rfl
@[simp] theorem skipIf_draws (c : Bool) : (s.skipIf c).draws = s.draws := by cases c <;> rfl

/-! ### `writeResultThenFlag` -/

@[simp] theorem writeResultThenFlag_I (x : RegIdx) (r : Byte) (f : Bool) : (s.writeResultThenFlag x r f).I = s.I := rfl
@[simp] theorem writeResultThenFlag_pc (x : RegIdx) (r : Byte) (f : Bool) : (s.writeResultThenFlag x r f).pc = s.pc := rfl
@[simp] theorem writeResultThenFlag_stack (x : RegIdx) (r : Byte) (f : Bool) : (s.writeResultThenFlag x r f).stack = s.stack := rfl
@[simp] theorem writeResultThenFlag_sp (x : RegIdx) (r : Byte) (f : Bool) : (s.writeResultThenFlag x r f).sp = s.sp := rfl
@[simp] theorem writeResultThenFlag_DT (x : RegIdx) (r : Byte) (f : Bool) : (s.writeResultThenFlag x r f).DT = s.DT := rfl
@[simp] theorem writeResultThenFlag_ST (x : RegIdx) (r : Byte) (f : Bool) : (s.writeResultThenFlag x r f).ST = s.ST := rfl
@[simp] theorem writeResultThenFlag_key (x : RegIdx) (r : Byte) (f : Bool) : (s.writeResultThenFlag x r f).key = s.key := rfl
@[simp] theorem writeResultThenFlag_disp (x : RegIdx) (r : Byte) (f : Bool) : (s.writeResultThenFlag x r f).disp = s.disp := rfl
@[simp] theorem writeResultThenFlag_dirty (x : RegIdx) (r : Byte) (f : Bool) : (s.writeResultThenFlag x r f).dirty = s.dirty := rfl
@[simp] theorem writeResultThenFlag_awaiting (x : RegIdx) (r : Byte) (f : Bool) : (s.writeResultThenFlag x r f).awaiting = s.awaiting := rfl
@[simp] theorem writeResultThenFlag_fault (x : RegIdx) (r : Byte) (f : Bool) : (s.writeResultThenFlag x r f).fault = s.fault := rfl
@[simp] theorem writeResultThenFlag_mem (x : RegIdx) (r : Byte) (f : Bool) : (s.writeResultThenFlag x r f).mem = s.mem := rfl
@[simp] theorem writeResultThenFlag_draws (x : RegIdx) (r : Byte) (f : Bool) : (s.writeResultThenFlag x r f).draws = s.draws := rfl

/-! ### `storeAtI` -/

@[simp] theorem storeAtI_V (bs : List Byte) : (s.storeAtI bs).V = s.V := rfl
@[simp] theorem storeAtI_I (bs : List Byte) : (s.storeAtI bs).I = s.I := rfl
@[simp] theorem storeAtI_pc (bs : List Byte) : (s.storeAtI bs).pc = s.pc := rfl
@[simp] theorem storeAtI_stack (bs : List Byte) : (s.storeAtI bs).stack = s.stack := rfl
@[simp] theorem storeAtI_sp (bs : List Byte) : (s.storeAtI bs).sp = s.sp := rfl
@[simp] theorem storeAtI_DT (bs : List Byte) : (s.storeAtI bs).DT = s.DT := rfl
@[simp] theorem storeAtI_ST (bs : List Byte) : (s.storeAtI bs).ST = s.ST := rfl
@[simp] theorem storeAtI_key (bs : List Byte) : (s.storeAtI bs).key = s.key := rfl
@[simp] theorem storeAtI_disp (bs : List Byte) : (s.storeAtI bs).disp = s.disp := rfl
@[simp] theorem storeAtI_dirty (bs : List Byte) : (s.storeAtI bs).dirty = s.dirty := rfl
@[simp] theorem storeAtI_awaiting (bs : List Byte) : (s.storeAtI bs).awaiting = s.awaiting := rfl
@[simp] theorem storeAtI_fault (bs : List Byte) : (s.storeAtI bs).fault = s.fault := rfl
@[simp] theorem storeAtI_draws (bs : List Byte) : (s.storeAtI bs).draws = s.draws := rfl

/-! ### `advanceI` -/

@[simp] theorem advanceI_V (x : RegIdx) : (s.advanceI x).V = s.V := rfl
@[simp] theorem advanceI_pc (x : RegIdx) : (s.advanceI x).pc = s.pc := rfl
@[simp] theorem advanceI_stack (x : RegIdx) : (s.advanceI x).stack = s.stack := rfl
@[simp] theorem advanceI_sp (x : RegIdx) : (s.advanceI x).sp = s.sp := rfl
@[simp] theorem advanceI_DT (x : RegIdx) : (s.advanceI x).DT = s.DT := rfl
@[simp] theorem advanceI_ST (x : RegIdx) : (s.advanceI x).ST = s.ST := rfl
@[simp] theorem advanceI_key (x : RegIdx) : (s.advanceI x).key = s.key := rfl
@[simp] theorem advanceI_disp (x : RegIdx) : (s.advanceI x).disp = s.disp := rfl
@[simp] theorem advanceI_dirty (x : RegIdx) : (s.advanceI x).dirty = s.dirty := rfl
@[simp] theorem advanceI_awaiting (x : RegIdx) : (s.advanceI x).awaiting = s.awaiting := rfl
@[simp] theorem advanceI_fault (x : RegIdx) : (s.advanceI x).fault = s.fault := rfl
@[simp] theorem advanceI_mem (x : RegIdx) : (s.advanceI x).mem = s.mem := rfl
@[simp] theorem advanceI_draws (x : RegIdx) : (s.advanceI x).draws = s.draws := rfl

/-! ### `randomByte` -/

@[simp] theorem randomByte_V : s.randomByte.2.V = s.V := rfl
@[simp] theorem randomByte_I : s.randomByte.2.I = s.I := rfl
@[simp] theorem randomByte_pc : s.randomByte.2.pc = s.pc := rfl
@[simp] theorem randomByte_stack : s.randomByte.2.stack = s.stack := rfl
@[simp] theorem randomByte_sp : s.randomByte.2.sp = s.sp := rfl
@[simp] theorem randomByte_DT : s.randomByte.2.DT = s.DT := rfl
@[simp] theorem randomByte_ST : s.randomByte.2.ST = s.ST := rfl
@[simp] theorem randomByte_key : s.randomByte.2.key = s.key := rfl
@[simp] theorem randomByte_disp : s.randomByte.2.disp = s.disp := rfl
@[simp] theorem randomByte_dirty : s.randomByte.2.dirty = s.dirty := rfl
@[simp] theorem randomByte_awaiting : s.randomByte.2.awaiting = s.awaiting := rfl
@[simp] theorem randomByte_fault : s.randomByte.2.fault = s.fault := rfl
@[simp] theorem randomByte_mem : s.randomByte.2.mem = s.mem := rfl
@[simp] theorem randomByte_draws : s.randomByte.2.draws = s.draws + 1 := rfl
@[simp] theorem randomByte_fst : s.randomByte.1 = Config.randomByte s.draws := rfl

/-! ### The fields an update writes -/

@[simp] theorem writeI_I (a : Word) : (s.writeI a).I = a := rfl
@[simp] theorem jump_pc (a : Word) : (s.jump a).pc = a := rfl
@[simp] theorem advance_pc : s.advance.pc = s.nextPc := rfl
@[simp] theorem nextPc_eq : s.nextPc = s.pc + 2 := rfl
@[simp] theorem skipIf_pc (c : Bool) : (s.skipIf c).pc = if c then s.pc + 4 else s.pc + 2 := by
  cases c
  · rfl
  · exact BitVec.add_assoc s.pc 2 2
@[simp] theorem storeAtI_mem (bs : List Byte) : (s.storeAtI bs).mem = s.mem.writeBytes s.I.toNat bs := rfl
@[simp] theorem advanceI_I (x : RegIdx) : (s.advanceI x).I = s.I + BitVec.ofNat 16 (regCount x) := rfl

/-! ### Reading a register after an update -/

/-- A register is read from `V` alone. -/
theorem readV_congr {s t : State} (h : t.V = s.V) (r : RegIdx) : t.readV r = s.readV r := by simp [readV, h]

@[simp] theorem readV_writeV_same (x : RegIdx) (b : Byte) : (s.writeV x b).readV x = b := by
  simp [readV, writeV]

theorem readV_writeV_other {r x : RegIdx} (b : Byte) (h : r ≠ x) : (s.writeV x b).readV r = s.readV r := by
  have : x.toNat ≠ r.toNat := fun e => h (BitVec.eq_of_toNat_eq e.symm)
  simp [readV, writeV, this]

/-- A register read after a register write, in one equation. -/
theorem readV_writeV (r x : RegIdx) (b : Byte) : (s.writeV x b).readV r = if r = x then b else s.readV r := by
  split
  · next h => rw [h, readV_writeV_same]
  · next h => exact readV_writeV_other s b h

@[simp] theorem readV_writeI (a : Word) (r : RegIdx) : (s.writeI a).readV r = s.readV r := rfl
@[simp] theorem readV_jump (a : Word) (r : RegIdx) : (s.jump a).readV r = s.readV r := rfl
@[simp] theorem readV_advance (r : RegIdx) : s.advance.readV r = s.readV r := rfl
@[simp] theorem readV_skipIf (c : Bool) (r : RegIdx) : (s.skipIf c).readV r = s.readV r := by cases c <;> rfl
@[simp] theorem readV_storeAtI (bs : List Byte) (r : RegIdx) : (s.storeAtI bs).readV r = s.readV r := rfl
@[simp] theorem readV_advanceI (x r : RegIdx) : (s.advanceI x).readV r = s.readV r := rfl

@[simp] theorem readV_randomByte (r : RegIdx) : s.randomByte.2.readV r = s.readV r := rfl

/-- Result first, flag last: `VF` ends as the flag whatever `x` is (`41_alu.md` R147). -/
theorem readV_writeResultThenFlag (x r : RegIdx) (b : Byte) (f : Bool) :
    (s.writeResultThenFlag x b f).readV r
      = if r = Config.flagReg then flagByte f else if r = x then b else s.readV r := by
  simp only [writeResultThenFlag, writeVF, readV_writeV]

end Sys2Proof.Machine.State
end

