-- ==== Sys2Proof/Laws/Display.lean ====
section
/-! SUPPORT. What drawing does to a grid (`43_display.md` R191, R192): one pixel, one sprite row, all rows. Each lemma says which cells toggle and when a collision is recorded. -/

namespace Sys2Proof.Machine

/-- Every cell is off on a blank grid. -/
@[simp] theorem Grid.cell_blank (r : Fin Config.displayHeight) (c : Fin Config.displayWidth) :
    Grid.cell Grid.blank r c = false := by simp [cell, blank]

/-- Two grids with equal cells are equal. -/
theorem Grid.ext_cell {g h : Grid} (e : ∀ r c, Grid.cell g r c = Grid.cell h r c) : g = h := by
  apply Vector.ext
  intro r hr
  apply Vector.ext
  intro c hc
  exact e ⟨r, hr⟩ ⟨c, hc⟩

/-- Flipping one cell: that cell toggles, every other is as before. -/
theorem Grid.cell_flip (g : Grid) (r r' : Fin Config.displayHeight) (c c' : Fin Config.displayWidth) :
    Grid.cell (Grid.flip g r' c') r c = if r' = r ∧ c' = c then !(Grid.cell g r c) else Grid.cell g r c := by
  by_cases hr : r' = r
  · subst hr
    by_cases hc : c' = c
    · subst hc; simp [cell, flip]
    · have : c'.val ≠ c.val := fun h => hc (Fin.ext h)
      simp [cell, flip, hc, this]
  · have : r'.val ≠ r.val := fun h => hr (Fin.ext h)
    simp [cell, flip, hr, this]

/-- The pixels of a sprite, each an unreduced row, an unreduced column and whether it is 1. -/
abbrev Pixels := List (Nat × Nat × Bool)

/-- A 1 pixel of the list falls on the cell. -/
def Pixels.hits (l : Pixels) (r : Fin Config.displayHeight) (c : Fin Config.displayWidth) : Prop :=
  ∃ p ∈ l, p.2.2 = true ∧ wrapRow p.1 = r ∧ wrapCol p.2.1 = c

/-- No two pixels of the list fall on one cell. -/
def Pixels.apart (l : Pixels) : Prop :=
  l.Pairwise fun p q => ¬ (wrapRow p.1 = wrapRow q.1 ∧ wrapCol p.2.1 = wrapCol q.2.1)

/-- Drawing a list of pixels one by one. -/
def Canvas.drawPixels (k : Canvas) (l : Pixels) : Canvas := l.foldl (fun k p => k.drawPixel p.1 p.2.1 p.2.2) k

/-- One pixel on the grid. -/
theorem Canvas.cell_drawPixel (k : Canvas) (row col : Nat) (on : Bool) (r : Fin Config.displayHeight)
    (c : Fin Config.displayWidth) :
    Grid.cell (k.drawPixel row col on).grid r c
      = if on = true ∧ wrapRow row = r ∧ wrapCol col = c then !(Grid.cell k.grid r c) else Grid.cell k.grid r c := by
  cases on <;> simp [drawPixel, Grid.cell_flip]

/-- One pixel and the collision. -/
theorem Canvas.collision_drawPixel (k : Canvas) (row col : Nat) (on : Bool) :
    (k.drawPixel row col on).collision
      = (k.collision || (on && Grid.cell k.grid (wrapRow row) (wrapCol col))) := by
  cases on <;> simp [drawPixel]

/-- Pixels that fall on distinct cells toggle exactly the cells they hit, each once; the collision is recorded exactly when
one of them was on. -/
theorem Canvas.drawPixels_spec (l : Pixels) (k : Canvas) (apart : l.apart) :
    (∀ r c, l.hits r c → Grid.cell (k.drawPixels l).grid r c = !(Grid.cell k.grid r c)) ∧
    (∀ r c, ¬ l.hits r c → Grid.cell (k.drawPixels l).grid r c = Grid.cell k.grid r c) ∧
    ((k.drawPixels l).collision = true ↔
      k.collision = true ∨ ∃ r c, l.hits r c ∧ Grid.cell k.grid r c = true) := by
  induction l generalizing k with
  | nil => simp [drawPixels, Pixels.hits]
  | cons p l ih =>
    obtain ⟨away, rest⟩ := List.pairwise_cons.mp apart
    have e : k.drawPixels (p :: l) = (k.drawPixel p.1 p.2.1 p.2.2).drawPixels l := rfl
    have hit : ∀ r c, Pixels.hits (p :: l) r c ↔
        (p.2.2 = true ∧ wrapRow p.1 = r ∧ wrapCol p.2.1 = c) ∨ Pixels.hits l r c := by
      intro r c; simp [Pixels.hits]
    have once : ∀ r c, (p.2.2 = true ∧ wrapRow p.1 = r ∧ wrapCol p.2.1 = c) → ¬ Pixels.hits l r c := by
      rintro r c ⟨_, rfl, rfl⟩ ⟨q, hq, _, e1, e2⟩
      exact away q hq ⟨e1.symm, e2.symm⟩
    obtain ⟨flips, keeps, coll⟩ := ih (k.drawPixel p.1 p.2.1 p.2.2) rest
    rw [e]
    refine ⟨fun r c h => ?_, fun r c h => ?_, ?_⟩
    · rcases (hit r c).mp h with h | h
      · rw [keeps r c (once r c h), cell_drawPixel, if_pos h]
      · rw [flips r c h, cell_drawPixel, if_neg (fun h' => once r c h' h)]
    · have h := mt (hit r c).mpr h
      rw [keeps r c (fun h' => h (.inr h')), cell_drawPixel, if_neg (fun h' => h (.inl h'))]
    · rw [coll, collision_drawPixel]
      constructor
      · rintro (h | ⟨r, c, h, on⟩)
        · rcases Bool.or_eq_true_iff.mp h with h | h
          · exact .inl h
          · have h := Bool.and_eq_true_iff.mp h
            exact .inr ⟨_, _, (hit _ _).mpr (.inl ⟨h.1, rfl, rfl⟩), h.2⟩
        · rw [cell_drawPixel, if_neg (fun h' => once r c h' h)] at on
          exact .inr ⟨r, c, (hit r c).mpr (.inr h), on⟩
      · rintro (h | ⟨r, c, h, on⟩)
        · exact .inl (by simp [h])
        · rcases (hit r c).mp h with ⟨one, rfl, rfl⟩ | h
          · exact .inl (by simp [one, on])
          · exact .inr ⟨r, c, h, by rw [cell_drawPixel, if_neg (fun h' => once r c h' h)]; exact on⟩

/-- The pixels of one sprite row (R191). -/
def rowPixels (row col : Nat) (b : Byte) : Pixels :=
  (List.range Config.spriteWidth).map fun j => (row, col + j, spritePixel b j)

/-- The pixels of a sprite, row by row (R191). -/
def spritePixels (row col : Nat) : List Byte → Pixels
  | [] => []
  | b :: bs => rowPixels row col b ++ spritePixels (row + 1) col bs

theorem Canvas.drawPixels_append (k : Canvas) (l m : Pixels) :
    k.drawPixels (l ++ m) = (k.drawPixels l).drawPixels m := List.foldl_append

theorem Canvas.drawRow_eq (k : Canvas) (row col : Nat) (b : Byte) :
    k.drawRow row col b = k.drawPixels (rowPixels row col b) := by
  simp only [drawPixels, rowPixels, List.foldl_map]
  rfl

/-- The loops of R192 draw the sprite's pixels one by one. -/
theorem Canvas.drawRows_eq (bs : List Byte) (k : Canvas) (row col : Nat) :
    k.drawRows row col bs = k.drawPixels (spritePixels row col bs) := by
  induction bs generalizing k row with
  | nil => rfl
  | cons b bs ih => rw [spritePixels, drawPixels_append, drawRows, ih, drawRow_eq]

theorem mem_rowPixels {row col : Nat} {b : Byte} {p : Nat × Nat × Bool} :
    p ∈ rowPixels row col b ↔ ∃ j, j < 8 ∧ p = (row, col + j, spritePixel b j) := by
  simp only [rowPixels, List.mem_map, List.mem_range]
  exact ⟨fun ⟨j, hj, e⟩ => ⟨j, hj, e.symm⟩, fun ⟨j, hj, e⟩ => ⟨j, hj, e.symm⟩⟩

theorem mem_spritePixels {row col : Nat} {bs : List Byte} {p : Nat × Nat × Bool} :
    p ∈ spritePixels row col bs ↔
      ∃ i j b, bs[i]? = some b ∧ j < 8 ∧ p = (row + i, col + j, spritePixel b j) := by
  induction bs generalizing row with
  | nil => simp [spritePixels]
  | cons b bs ih =>
    rw [spritePixels, List.mem_append, mem_rowPixels, ih]
    constructor
    · rintro (⟨j, hj, e⟩ | ⟨i, j, c, hc, hj, e⟩)
      · exact ⟨0, j, b, rfl, hj, e⟩
      · exact ⟨i + 1, j, c, hc, hj, by rw [e, Nat.add_assoc, Nat.add_comm 1 i]⟩
    · rintro ⟨i, j, c, hc, hj, e⟩
      cases i with
      | zero => cases hc; exact .inl ⟨j, hj, e⟩
      | succ i => exact .inr ⟨i, j, c, hc, hj, by rw [e, Nat.add_assoc, Nat.add_comm 1 i]⟩

/-- The pixels of a sprite of at most as many rows as the grid has fall on distinct cells. -/
theorem spritePixels_apart (bs : List Byte) (row col : Nat) (h : bs.length ≤ Config.displayHeight) :
    (spritePixels row col bs).apart := by
  have rows : ∀ a b : Nat, wrapRow a = wrapRow b → a % 32 = b % 32 := fun a b e => congrArg Fin.val e
  have cols : ∀ a b : Nat, wrapCol a = wrapCol b → a % 64 = b % 64 := fun a b e => congrArg Fin.val e
  induction bs generalizing row with
  | nil => exact List.Pairwise.nil
  | cons b bs ih =>
    have len : bs.length + 1 ≤ 32 := h
    refine List.pairwise_append.mpr ⟨?_, ih (row + 1) (by rw [List.length_cons] at h; omega), ?_⟩
    · rw [rowPixels, List.pairwise_map]
      refine List.Pairwise.imp_of_mem ?_ List.pairwise_lt_range
      rintro j k hj hk lt ⟨_, e⟩
      have e : (col + j) % 64 = (col + k) % 64 := cols _ _ e
      have hj : j < 8 := List.mem_range.mp hj
      have hk : k < 8 := List.mem_range.mp hk
      omega
    · intro p hp q hq ⟨e, _⟩
      obtain ⟨j, _, rfl⟩ := mem_rowPixels.mp hp
      obtain ⟨i, k, c, hc, _, rfl⟩ := mem_spritePixels.mp hq
      have e : row % 32 = (row + 1 + i) % 32 := rows _ _ e
      have : i < bs.length := (List.getElem?_eq_some_iff.mp hc).1
      omega

end Sys2Proof.Machine
end

