-- ==== Sys2Proof/Laws/Memory.lean ====
section
/-! SUPPORT. The laws of memory: a read after a write, the canonical form kept by every memory operation, equal reads make equal memories, and the range check. -/

namespace Sys2Proof.Machine.Memory

theorem read_cell (a : Nat) (b : Byte) (m : Memory) (c : Nat) :
    read (cell a b ++ m) c = if c = a then (if b = resetByte a then read m c else b) else read m c := by
  unfold cell
  split <;> simp [read]

/-- Below a canonical list's bound nothing is listed. -/
theorem read_below {lo : Nat} {m : Memory} (h : wfFrom lo m = true) {a : Nat} (ha : a < lo) :
    read m a = resetByte a := by
  induction m generalizing lo with
  | nil => rfl
  | cons e m ih =>
    obtain ⟨k, v⟩ := e
    simp only [wfFrom, Bool.and_eq_true, decide_eq_true_eq] at h
    have : a ≠ k := by omega
    simp only [read, this, if_false]
    exact ih h.2 (by omega)

theorem wfFrom_mono {lo lo' : Nat} {m : Memory} (h : wfFrom lo m = true) (le : lo' ≤ lo) : wfFrom lo' m = true := by
  cases m with
  | nil => rfl
  | cons e m =>
    obtain ⟨k, v⟩ := e
    simp only [wfFrom, Bool.and_eq_true, decide_eq_true_eq] at h ⊢
    exact ⟨⟨⟨by omega, h.1.1.2⟩, h.1.2⟩, h.2⟩

theorem wfFrom_cell {lo a : Nat} {b : Byte} {m : Memory} (hlo : lo ≤ a) (ha : a < Config.memSize)
    (h : wfFrom (a + 1) m = true) : wfFrom lo (cell a b ++ m) = true := by
  unfold cell
  split
  · exact wfFrom_mono h (by omega)
  · next hb => simp [wfFrom, hlo, ha, hb, h]

theorem wfFrom_write {lo : Nat} {m : Memory} (h : wfFrom lo m = true) {a : Nat} (hlo : lo ≤ a)
    (ha : a < Config.memSize) (b : Byte) : wfFrom lo (write m a b) = true := by
  induction m generalizing lo with
  | nil => simpa [write] using wfFrom_cell (m := []) (b := b) hlo ha rfl
  | cons e m ih =>
    obtain ⟨k, v⟩ := e
    have h' := h
    simp only [wfFrom, Bool.and_eq_true, decide_eq_true_eq] at h'
    unfold write
    split
    · next lt => exact wfFrom_cell hlo ha (by simp [wfFrom, h'.1.1.2, h'.1.2, h'.2]; omega)
    · split
      · next _ e => subst e; exact wfFrom_cell hlo ha h'.2
      · next nlt ne =>
        simp only [wfFrom, Bool.and_eq_true, decide_eq_true_eq]
        exact ⟨h'.1, ih h'.2 (by omega)⟩

/-- Writing one byte of the address space keeps the canonical form. -/
theorem write_wf {m : Memory} (h : m.wf = true) {a : Nat} (ha : a < Config.memSize) (b : Byte) :
    (m.write a b).wf = true := wfFrom_write h (Nat.zero_le a) ha b

theorem read_write_from {lo : Nat} {m : Memory} (h : wfFrom lo m = true) (a : Nat) (b : Byte) (c : Nat) :
    read (write m a b) c = if c = a then b else read m c := by
  induction m generalizing lo with
  | nil =>
    have := read_cell a b [] c
    rw [List.append_nil] at this
    rw [write, this]
    split
    · next e => subst e; split <;> simp_all [read]
    · rfl
  | cons e m ih =>
    obtain ⟨k, v⟩ := e
    simp only [wfFrom, Bool.and_eq_true, decide_eq_true_eq] at h
    unfold write
    split
    · next lt =>
      rw [read_cell]
      split
      · next e =>
        subst e
        have low : read ((k, v) :: m) c = resetByte c := by
          have : c ≠ k := by omega
          simp only [read, this, if_false]
          exact read_below h.2 (by omega)
        split
        · next hb => rw [low, hb]
        · rfl
      · rfl
    · split
      · next _ e =>
        subst e
        rw [read_cell]
        split
        · next e =>
          subst e
          split
          · next hb => rw [read_below h.2 (by omega), hb]
          · rfl
        · next ne => simp [read, ne]
      · next nlt ne =>
        simp only [read, ih h.2]
        by_cases hc : c = k
        · have : c ≠ a := by omega
          simp [hc]
          omega
        · simp [hc]

/-- A read after a write of one byte of a canonical memory. -/
theorem read_write {m : Memory} (h : m.wf = true) (a : Nat) (b : Byte) (c : Nat) :
    (m.write a b).read c = if c = a then b else m.read c := read_write_from h a b c

theorem read_write_same {m : Memory} (h : m.wf = true) (a : Nat) (b : Byte) : (m.write a b).read a = b := by
  rw [read_write h, if_pos rfl]

theorem read_write_other {m : Memory} (h : m.wf = true) {a c : Nat} (b : Byte) (hc : c ≠ a) :
    (m.write a b).read c = m.read c := by rw [read_write h, if_neg hc]

/-- Writing a run of bytes of the address space keeps the canonical form. -/
theorem writeBytes_wf {m : Memory} (h : m.wf = true) {a : Nat} {bs : List Byte}
    (ha : a + bs.length ≤ Config.memSize) : (m.writeBytes a bs).wf = true := by
  induction bs generalizing m a with
  | nil => exact h
  | cons b bs ih =>
    simp only [List.length_cons] at ha
    exact ih (write_wf h (by omega) b) (by omega)

/-- A read after a run of bytes was written: byte `k` of the run at its `k`-th address, every other byte as before. -/
theorem read_writeBytes {m : Memory} (h : m.wf = true) {a : Nat} {bs : List Byte}
    (ha : a + bs.length ≤ Config.memSize) (c : Nat) :
    (m.writeBytes a bs).read c = if a ≤ c then bs.getD (c - a) (m.read c) else m.read c := by
  induction bs generalizing m a with
  | nil => simp [writeBytes]
  | cons b bs ih =>
    simp only [List.length_cons] at ha
    have wf := write_wf h (a := a) (by omega) b
    rw [writeBytes, ih wf (by omega), read_write h]
    by_cases hc : a + 1 ≤ c
    · have e : c - a = c - (a + 1) + 1 := by omega
      simp [hc, show a ≤ c by omega, show c ≠ a by omega, e]
    · by_cases e : c = a
      · subst e; simp
      · simp [hc, show ¬ a ≤ c by omega, e]

theorem read_listed {lo k : Nat} {v : Byte} {m : Memory} (h : wfFrom lo ((k, v) :: m) = true) :
    read ((k, v) :: m) k ≠ resetByte k := by
  simp only [wfFrom, Bool.and_eq_true, bne_iff_ne] at h
  simpa [read] using h.1.2

theorem ext_from {lo : Nat} {m m' : Memory} (h : wfFrom lo m = true) (h' : wfFrom lo m' = true)
    (e : ∀ a, read m a = read m' a) : m = m' := by
  induction m generalizing lo m' with
  | nil =>
    cases m' with
    | nil => rfl
    | cons p m' => exact absurd (e p.1).symm (read_listed h')
  | cons p m ih =>
    obtain ⟨k, v⟩ := p
    cases m' with
    | nil => exact absurd (e k) (read_listed h)
    | cons p' m' =>
      obtain ⟨k', v'⟩ := p'
      have w := h
      have w' := h'
      simp only [wfFrom, Bool.and_eq_true, decide_eq_true_eq] at w w'
      have hk : k = k' := by
        rcases Nat.lt_trichotomy k k' with lt | eq | gt
        · have : wfFrom k' ((k', v') :: m') = true := by
            simp only [wfFrom, Bool.and_eq_true, decide_eq_true_eq]
            exact ⟨⟨⟨le_refl _, w'.1.1.2⟩, w'.1.2⟩, w'.2⟩
          exact absurd ((e k).trans (read_below this lt)) (read_listed h)
        · exact eq
        · have : wfFrom k ((k, v) :: m) = true := by
            simp only [wfFrom, Bool.and_eq_true, decide_eq_true_eq]
            exact ⟨⟨⟨le_refl _, w.1.1.2⟩, w.1.2⟩, w.2⟩
          exact absurd ((e k').symm.trans (read_below this gt)) (read_listed h')
      subst hk
      have hv : v = v' := by simpa [read] using e k
      subst hv
      congr 1
      refine ih w.2 w'.2 fun a => ?_
      by_cases ha : a = k
      · subst ha; rw [read_below w.2 (by omega), read_below w'.2 (by omega)]
      · simpa [read, ha] using e a

/-- Equal memories are equal data: two canonical memories that read alike are the same list. -/
theorem eq_of_read_eq {m m' : Memory} (h : m.wf = true) (h' : m'.wf = true) (e : ∀ a, m.read a = m'.read a) :
    m = m' := ext_from h h' e

@[simp] theorem length_readBytes (m : Memory) (a n : Nat) : (m.readBytes a n).length = n := by
  induction n generalizing a with
  | zero => rfl
  | succ n ih => simp [readBytes, ih]

theorem getElem_readBytes (m : Memory) (a n i : Nat) (h : i < (m.readBytes a n).length) :
    (m.readBytes a n)[i] = m.read (a + i) := by
  induction n generalizing a i with
  | zero => simp [readBytes] at h
  | succ n ih =>
    cases i with
    | zero => rfl
    | succ i => simp only [readBytes, List.getElem_cons_succ, ih, Nat.add_right_comm, Nat.add_assoc]

end Sys2Proof.Machine.Memory

namespace Sys2Proof.Machine

theorem rangeFault_eq_none_iff {base count : Nat} :
    rangeFault base count = none ↔ count = 0 ∨ base + count ≤ Config.memSize := by
  unfold rangeFault
  split
  · simp; omega
  · simp; omega

/-- The offending address of R67. -/
theorem rangeFault_eq_some_iff {base count addr : Nat} :
    rangeFault base count = some addr ↔
      count ≠ 0 ∧ Config.memSize < base + count ∧ addr = max base Config.memSize := by
  unfold rangeFault
  split <;> simp <;> omega

end Sys2Proof.Machine
end

