-- ==== Sys2Proof/Laws/Ops.lean ====
section
/-! SUPPORT. One lemma per shared operation that says once everything it can do: raising, the call stack, memory ranges, the register loops, the keypad scan, the waiting step, the fetch and the step. -/

namespace Sys2Proof.Machine

/-- The memory size, as a numeral for arithmetic. -/
theorem memSize_eq : Config.memSize = 4096 := rfl

/-- The stack capacity, as a numeral for arithmetic. -/
theorem stackCapacity_eq : Config.stackCapacity = 16 := rfl

/-- Raising a fault: the latch and nothing else (`60_exceptions.md` R224). -/
theorem State.raise_eq (s : State) (f : Fault) : s.raise f = .next { s with fault := some f } := rfl

/-! ### The call stack (`10_state.md` R27) -/

theorem State.push_full {s : State} (h : s.sp.val = Config.stackCapacity) (v : Word) : s.push v = none := by
  simp [push, h]

theorem State.push_room {s : State} (h : s.sp.val < Config.stackCapacity) (v : Word) :
    ∃ t, s.push v = some t ∧ t.sp.val = s.sp.val + 1 ∧
      t.stack = s.stack.set s.sp.val v h ∧ t = { s with stack := t.stack, sp := t.sp } := by
  refine ⟨_, dif_pos h, rfl, rfl, rfl⟩

theorem State.pop_empty {s : State} (h : s.sp.val = 0) : s.pop = none := by
  simp [pop, h]

theorem State.pop_live {s : State} (h : 0 < s.sp.val) :
    ∃ v t, s.pop = some (v, t) ∧ s.stack[s.sp.val - 1]? = some v ∧ t.sp.val = s.sp.val - 1 ∧
      t = { s with sp := t.sp } := by
  have lt : s.sp.val - 1 < Config.stackCapacity := by have := s.sp.isLt; omega
  refine ⟨s.stack[s.sp.val - 1], { s with sp := ⟨s.sp.val - 1, Nat.lt_succ_of_lt lt⟩ }, ?_, ?_, rfl, rfl⟩
  · simp [pop, h]
  · simp [lt]

/-! ### Ranges of memory (`20_memory.md` R67) -/

theorem State.withRange_ok {s : State} {count : Nat} (h : count = 0 ∨ s.I.toNat + count ≤ Config.memSize)
    (i : Instr) (body : State) : s.withRange i count body = .next body := by
  rw [withRange, rangeFault_eq_none_iff.mpr h]

theorem State.withRange_out {s : State} {count : Nat} (h0 : count ≠ 0) (h : Config.memSize < s.I.toNat + count)
    (i : Instr) (body : State) :
    s.withRange i count body = s.raise (.memoryFault (max s.I.toNat Config.memSize) s.pc (encode i)) := by
  rw [withRange, rangeFault_eq_some_iff.mpr ⟨h0, h, rfl⟩]

/-- What `withRange` can answer: the body, or the latch alone. -/
theorem State.withRange_cases (s : State) (i : Instr) (count : Nat) (body : State) :
    (count = 0 ∨ s.I.toNat + count ≤ Config.memSize) ∧ s.withRange i count body = .next body ∨
    (count ≠ 0 ∧ Config.memSize < s.I.toNat + count) ∧ s.withRange i count body =
      s.raise (.memoryFault (max s.I.toNat Config.memSize) s.pc (encode i)) := by
  by_cases h : count = 0 ∨ s.I.toNat + count ≤ Config.memSize
  · exact .inl ⟨h, withRange_ok h i body⟩
  · have h' : count ≠ 0 ∧ Config.memSize < s.I.toNat + count := by omega
    exact .inr ⟨h', withRange_out h'.1 h'.2 i body⟩

/-! ### Register ranges (`30_encoding.md` R94) -/

@[simp] theorem length_regRange (x : RegIdx) : (regRange x).length = regCount x := by
  simp [regRange, regCount]

theorem mem_regRange {r x : RegIdx} : r ∈ regRange x ↔ r.toNat ≤ x.toNat := by
  simp only [regRange, List.mem_map, List.mem_range]
  constructor
  · rintro ⟨k, hk, rfl⟩
    rw [BitVec.toNat_ofNat]
    omega
  · intro h
    exact ⟨r.toNat, by omega, BitVec.eq_of_toNat_eq (by simp)⟩

theorem getElem_regRange (x : RegIdx) (k : Nat) (h : k < (regRange x).length) :
    (regRange x)[k] = BitVec.ofNat 4 k := by simp [regRange]

/-- Writing a function's values to a list of registers changes only `V`. -/
theorem foldl_writeV_frame (g : RegIdx → Byte) (l : List RegIdx) (s : State) :
    l.foldl (fun t r => t.writeV r (g r)) s = { s with V := (l.foldl (fun t r => t.writeV r (g r)) s).V } := by
  induction l generalizing s with
  | nil => rfl
  | cons r l ih => rw [List.foldl_cons, ih]; rfl

theorem readV_foldl_writeV (g : RegIdx → Byte) (l : List RegIdx) (s : State) (r : RegIdx) :
    (l.foldl (fun t r => t.writeV r (g r)) s).readV r = if r ∈ l then g r else s.readV r := by
  induction l generalizing s with
  | nil => simp
  | cons q l ih =>
    rw [List.foldl_cons, ih, State.readV_writeV]
    by_cases e : r = q
    · subst e; by_cases h : r ∈ l <;> simp [h]
    · simp [e]

/-- The load loop of `Fx65` changes only `V` (`42_index_memory.md` R175). -/
theorem State.loadFromI_frame (s : State) (x : RegIdx) : s.loadFromI x = { s with V := (s.loadFromI x).V } :=
  foldl_writeV_frame _ _ _

/-- The load loop of `Fx65`: `V[0]` to `V[x]` from memory, the others as before (R175). -/
theorem State.readV_loadFromI (s : State) (x r : RegIdx) :
    (s.loadFromI x).readV r = if r.toNat ≤ x.toNat then s.mem.read (s.I.toNat + r.toNat) else s.readV r := by
  rw [loadFromI, readV_foldl_writeV]
  simp only [mem_regRange]

/-! ### The other fields after the load loop -/

@[simp] theorem State.loadFromI_I (s : State) (x : RegIdx) : (s.loadFromI x).I = s.I := by rw [loadFromI_frame]
@[simp] theorem State.loadFromI_pc (s : State) (x : RegIdx) : (s.loadFromI x).pc = s.pc := by rw [loadFromI_frame]
@[simp] theorem State.loadFromI_stack (s : State) (x : RegIdx) : (s.loadFromI x).stack = s.stack := by rw [loadFromI_frame]
@[simp] theorem State.loadFromI_sp (s : State) (x : RegIdx) : (s.loadFromI x).sp = s.sp := by rw [loadFromI_frame]
@[simp] theorem State.loadFromI_DT (s : State) (x : RegIdx) : (s.loadFromI x).DT = s.DT := by rw [loadFromI_frame]
@[simp] theorem State.loadFromI_ST (s : State) (x : RegIdx) : (s.loadFromI x).ST = s.ST := by rw [loadFromI_frame]
@[simp] theorem State.loadFromI_key (s : State) (x : RegIdx) : (s.loadFromI x).key = s.key := by rw [loadFromI_frame]
@[simp] theorem State.loadFromI_disp (s : State) (x : RegIdx) : (s.loadFromI x).disp = s.disp := by rw [loadFromI_frame]
@[simp] theorem State.loadFromI_dirty (s : State) (x : RegIdx) : (s.loadFromI x).dirty = s.dirty := by rw [loadFromI_frame]
@[simp] theorem State.loadFromI_awaiting (s : State) (x : RegIdx) : (s.loadFromI x).awaiting = s.awaiting := by rw [loadFromI_frame]
@[simp] theorem State.loadFromI_fault (s : State) (x : RegIdx) : (s.loadFromI x).fault = s.fault := by rw [loadFromI_frame]
@[simp] theorem State.loadFromI_mem (s : State) (x : RegIdx) : (s.loadFromI x).mem = s.mem := by rw [loadFromI_frame]
@[simp] theorem State.loadFromI_draws (s : State) (x : RegIdx) : (s.loadFromI x).draws = s.draws := by rw [loadFromI_frame]

/-! ### The keypad (`44_input_timers.md` R204) -/

theorem mem_allKeys (k : KeyIdx) : k ∈ allKeys := by
  simp only [allKeys, List.mem_map, List.mem_range]
  exact ⟨k.toNat, k.isLt, BitVec.eq_of_toNat_eq (by simp)⟩

/-- No key is found exactly when none is down. -/
theorem State.firstKey_eq_none_iff {s : State} : s.firstKey = none ↔ ∀ k, s.readKey k = false := by
  simp only [firstKey, List.find?_eq_none, Bool.not_eq_true]
  exact ⟨fun h k => h k (mem_allKeys k), fun h k _ => h k⟩

/-- The key found is down and no lower one is. -/
theorem State.firstKey_eq_some {s : State} {k : KeyIdx} (h : s.firstKey = some k) :
    s.readKey k = true ∧ ∀ j : KeyIdx, j.toNat < k.toNat → s.readKey j = false := by
  rw [firstKey, List.find?_eq_some_iff_getElem] at h
  obtain ⟨hk, i, hi, e, before⟩ := h
  refine ⟨by simpa using hk, fun j hj => ?_⟩
  have hi' : i < Config.nkeys := by simpa [allKeys] using hi
  have ek : BitVec.ofNat 4 i = k := by simpa [allKeys] using e
  have ik : k.toNat = i := by
    rw [← ek, BitVec.toNat_ofNat]
    exact Nat.mod_eq_of_lt hi'
  have hb := before j.toNat (by omega)
  have ej : allKeys[j.toNat]'(by simpa [allKeys] using j.isLt) = j := by
    simp [allKeys]
  rw [ej] at hb
  simpa using hb

/-- A waiting step: nothing changes with no key down; else the least key goes to the register and the wait ends
(R204). -/
theorem State.waitScan_cases (s : State) (r : RegIdx) :
    (s.firstKey = none ∧ s.waitScan r = s) ∨
    ∃ k, s.firstKey = some k ∧
      s.waitScan r = { (s.writeV r (k.setWidth 8)).advance with awaiting := .notWaiting } := by
  cases h : s.firstKey with
  | none => exact .inl ⟨rfl, by simp [waitScan, h]⟩
  | some k => exact .inr ⟨k, rfl, by simp only [waitScan, h]; rfl⟩

/-! ### Fetch and step (`20_memory.md` R62, `30_encoding.md` R90) -/

theorem fetchable_iff {a : Word} : fetchable a = true ↔ a.toNat % 2 = 0 ∧ a.toNat + 1 < Config.memSize := by
  simp [fetchable]

/-- The three outcomes of a fetch. -/
theorem State.fetch_cases (s : State) :
    (s.pc.toNat % 2 = 1 ∧ s.fetch = .error (.fetchMisaligned s.pc)) ∨
    (s.pc.toNat % 2 = 0 ∧ Config.memSize ≤ s.pc.toNat + 1 ∧ s.fetch = .error (.fetchOutOfRange s.pc)) ∨
    (fetchable s.pc = true ∧
      s.fetch = .ok (wordOfBytes (s.mem.read s.pc.toNat) (s.mem.read (s.pc.toNat + 1)))) := by
  unfold fetch
  rcases Nat.mod_two_eq_zero_or_one s.pc.toNat with h | h
  · by_cases hb : Config.memSize ≤ s.pc.toNat + 1
    · exact .inr (.inl ⟨h, hb, by rw [if_neg (by omega), if_pos hb]⟩)
    · exact .inr (.inr ⟨fetchable_iff.mpr ⟨h, by omega⟩, by rw [if_neg (by omega), if_neg hb]⟩)
  · exact .inl ⟨h, if_pos h⟩

/-- What one step can do, guards included (R90). -/
theorem step_cases (s : State) :
    (∃ f, s.fault = some f ∧ step s = .fault f) ∨
    (∃ r, s.fault = none ∧ s.awaiting = .waiting r ∧ step s = .next (s.waitScan r)) ∨
    (∃ f, s.fault = none ∧ s.awaiting = .notWaiting ∧ s.fetch = .error f ∧ step s = s.raise f) ∨
    (∃ w e, s.fault = none ∧ s.awaiting = .notWaiting ∧ s.fetch = .ok w ∧ decodeWord w = .error e ∧
      step s = s.raise (.unsupportedInstruction s.pc w)) ∨
    (∃ w i, s.fault = none ∧ s.awaiting = .notWaiting ∧ s.fetch = .ok w ∧ decodeWord w = .ok i ∧
      step s = exec i s) := by
  cases hf : s.fault with
  | some f => exact .inl ⟨f, rfl, by simp [step, cycle, hf]⟩
  | none =>
    right
    cases ha : s.awaiting with
    | waiting r => exact .inl ⟨r, rfl, rfl, by simp [step, cycle, hf, ha]⟩
    | notWaiting =>
      right
      cases hw : s.fetch with
      | error f => exact .inl ⟨f, rfl, rfl, rfl, by simp [step, cycle, hf, ha, hw]⟩
      | ok w =>
        right
        cases hd : decodeWord w with
        | error e => exact .inl ⟨w, e, rfl, rfl, rfl, hd, by simp [step, cycle, hf, ha, hw, State.runWord, hd]⟩
        | ok i => exact .inr ⟨w, i, rfl, rfl, rfl, hd, by simp [step, cycle, hf, ha, hw, State.runWord, hd]⟩

/-! ### Placing a word where the next step fetches (log 14) -/

/-- Nothing keeps the next step from fetching. -/
theorem State.placeWord_ready (s : State) (w : Word) :
    (s.placeWord w).fault = none ∧ (s.placeWord w).awaiting = .notWaiting ∧ fetchable (s.placeWord w).pc = true := by
  refine ⟨rfl, rfl, ?_⟩
  change fetchable (if fetchable s.pc then s.pc else BitVec.ofNat 16 Config.progStart) = true
  split
  · assumption
  · decide

/-- The next step fetches the word placed, and memory stays canonical. -/
theorem State.fetch_placeWord {s : State} (h : s.mem.wf = true) (w : Word) :
    (s.placeWord w).fetch = .ok w ∧ (s.placeWord w).mem.wf = true := by
  obtain ⟨_, _, ready⟩ := s.placeWord_ready w
  have bound := (fetchable_iff.mp ready).2
  have room : (s.placeWord w).pc.toNat + (bytesOfWord w).length ≤ Config.memSize := by
    have : (bytesOfWord w).length = 2 := rfl
    omega
  have mem : (s.placeWord w).mem = s.mem.writeBytes (s.placeWord w).pc.toNat (bytesOfWord w) := rfl
  refine ⟨?_, mem ▸ Memory.writeBytes_wf h room⟩
  rcases (s.placeWord w).fetch_cases with ⟨odd, _⟩ | ⟨_, out, _⟩ | ⟨_, e⟩
  · have := (fetchable_iff.mp ready).1; omega
  · omega
  · rw [e, mem, Memory.read_writeBytes h room, Memory.read_writeBytes h room]
    simp [bytesOfWord, wordOfBytes_bytesOfWord]

end Sys2Proof.Machine
end

