-- ==== Sys2Proof/Laws/PerInstr.lean ====
section
/-! SUPPORT. A statement of every instruction as syntax: the word it is written as is of its own row of the opcode map (`30_encoding.md` R96), one lemma per constructor. -/

namespace Sys2Proof.Laws.EncodingRow

/-- The row of the opcode map with the instruction's mnemonic accepts the instruction's word (R96). -/
def Statement (i : Instr) : Prop := ∃ r ∈ opcodeMap, r.mnemonic = i.mnemonic ∧ r.accepts (encode i) = true

/-- A word of format `NNN` is accepted by its family's row. -/
theorem accepts_nnn {r : OpcodeRow} {op : Nibble} {nnn : Addr12} (mask : r.mask = wordNNN 0xF 0)
    (value : r.value = wordNNN op 0) : r.accepts (wordNNN op nnn) = true := by
  rw [OpcodeRow.accepts, mask, value, beq_iff_eq]
  apply BitVec.eq_of_getLsbD_eq
  intro i hi
  rw [BitVec.getLsbD_and, getLsbD_wordNNN, getLsbD_wordNNN, getLsbD_wordNNN]
  by_cases h : i < 12
  · simp [h]
  · have : (0xF : Nibble).getLsbD (i - 12) = true := by
      rw [show (0xF : Nibble) = BitVec.allOnes 4 from rfl, BitVec.getLsbD_allOnes]
      exact decide_eq_true (by omega)
    simp only [h, if_false, this, Bool.and_true]

/-- A word of format `XKK` or `XSUB` is accepted by its row: a mask of family bits and some bits of the low byte. -/
theorem accepts_xkk {r : OpcodeRow} {op : Nibble} {x : RegIdx} {kk m v : Byte} (mask : r.mask = wordXKK 0xF 0 m)
    (value : r.value = wordXKK op 0 v) (low : kk &&& m = v) : r.accepts (wordXKK op x kk) = true := by
  rw [OpcodeRow.accepts, mask, value, beq_iff_eq, wordXKK_and, low,
    show x &&& 0 = 0 from BitVec.and_zero, show op &&& 0xF = op from BitVec.and_allOnes]

/-- A word of format `XYN` is one of format `XKK`. -/
theorem wordXYN_eq (op : Nibble) (x y : RegIdx) (n : Nibble) : wordXYN op x y n = wordXKK op x (y ++ n) := by
  apply BitVec.eq_of_getLsbD_eq
  intro i hi
  rw [getLsbD_wordXYN, getLsbD_wordXKK, BitVec.getLsbD_append]
  by_cases h : i < 4
  · simp [h, show i < 8 by omega]
  · by_cases h' : i < 8
    · simp [h, h']
    · simp [h, h']

/-- A word of format `XYN` with a sub-selector is accepted by its row. -/
theorem accepts_xyn {r : OpcodeRow} {op : Nibble} {x y : RegIdx} {n : Nibble} (mask : r.mask = wordXYN 0xF 0 0 0xF)
    (value : r.value = wordXYN op 0 0 n) : r.accepts (wordXYN op x y n) = true := by
  rw [wordXYN_eq] at mask value ⊢
  refine accepts_xkk mask value ?_
  rw [BitVec.and_append, show y &&& 0 = 0 from BitVec.and_zero, show n &&& 0xF = n from BitVec.and_allOnes]

theorem cls : Statement .cls :=
  ⟨⟨"CLS", 0xFFFF, 0x00E0⟩, by decide, rfl, rfl⟩

theorem ret : Statement .ret :=
  ⟨⟨"RET", 0xFFFF, 0x00EE⟩, by decide, rfl, rfl⟩

theorem sys (nnn : Addr12) : Statement (.sys nnn) :=
  ⟨⟨"SYS_nnn", 0xF000, 0x0000⟩, by decide, rfl, accepts_nnn rfl rfl⟩

theorem jp (nnn : Addr12) : Statement (.jp nnn) :=
  ⟨⟨"JP_nnn", 0xF000, 0x1000⟩, by decide, rfl, accepts_nnn rfl rfl⟩

theorem call (nnn : Addr12) : Statement (.call nnn) :=
  ⟨⟨"CALL_nnn", 0xF000, 0x2000⟩, by decide, rfl, accepts_nnn rfl rfl⟩

theorem seImm (x : RegIdx) (kk : Byte) : Statement (.seImm x kk) :=
  ⟨⟨"SE_Vx__kk", 0xF000, 0x3000⟩, by decide, rfl, accepts_xkk (m := 0) (v := 0) rfl rfl BitVec.and_zero⟩

theorem sneImm (x : RegIdx) (kk : Byte) : Statement (.sneImm x kk) :=
  ⟨⟨"SNE_Vx__kk", 0xF000, 0x4000⟩, by decide, rfl, accepts_xkk (m := 0) (v := 0) rfl rfl BitVec.and_zero⟩

theorem seReg (x y : RegIdx) : Statement (.seReg x y) :=
  ⟨⟨"SE_Vx__Vy", 0xF00F, 0x5000⟩, by decide, rfl, accepts_xyn rfl rfl⟩

theorem ldImm (x : RegIdx) (kk : Byte) : Statement (.ldImm x kk) :=
  ⟨⟨"LD_Vx__kk", 0xF000, 0x6000⟩, by decide, rfl, accepts_xkk (m := 0) (v := 0) rfl rfl BitVec.and_zero⟩

theorem addImm (x : RegIdx) (kk : Byte) : Statement (.addImm x kk) :=
  ⟨⟨"ADD_Vx__kk", 0xF000, 0x7000⟩, by decide, rfl, accepts_xkk (m := 0) (v := 0) rfl rfl BitVec.and_zero⟩

theorem ldReg (x y : RegIdx) : Statement (.ldReg x y) :=
  ⟨⟨"LD_Vx__Vy", 0xF00F, 0x8000⟩, by decide, rfl, accepts_xyn rfl rfl⟩

theorem orReg (x y : RegIdx) : Statement (.orReg x y) :=
  ⟨⟨"OR_Vx__Vy", 0xF00F, 0x8001⟩, by decide, rfl, accepts_xyn rfl rfl⟩

theorem andReg (x y : RegIdx) : Statement (.andReg x y) :=
  ⟨⟨"AND_Vx__Vy", 0xF00F, 0x8002⟩, by decide, rfl, accepts_xyn rfl rfl⟩

theorem xorReg (x y : RegIdx) : Statement (.xorReg x y) :=
  ⟨⟨"XOR_Vx__Vy", 0xF00F, 0x8003⟩, by decide, rfl, accepts_xyn rfl rfl⟩

theorem addReg (x y : RegIdx) : Statement (.addReg x y) :=
  ⟨⟨"ADD_Vx__Vy", 0xF00F, 0x8004⟩, by decide, rfl, accepts_xyn rfl rfl⟩

theorem subReg (x y : RegIdx) : Statement (.subReg x y) :=
  ⟨⟨"SUB_Vx__Vy", 0xF00F, 0x8005⟩, by decide, rfl, accepts_xyn rfl rfl⟩

theorem shr (x y : RegIdx) : Statement (.shr x y) :=
  ⟨⟨"SHR_Vx", 0xF00F, 0x8006⟩, by decide, rfl, accepts_xyn rfl rfl⟩

theorem subnReg (x y : RegIdx) : Statement (.subnReg x y) :=
  ⟨⟨"SUBN_Vx__Vy", 0xF00F, 0x8007⟩, by decide, rfl, accepts_xyn rfl rfl⟩

theorem shl (x y : RegIdx) : Statement (.shl x y) :=
  ⟨⟨"SHL_Vx", 0xF00F, 0x800E⟩, by decide, rfl, accepts_xyn rfl rfl⟩

theorem sneReg (x y : RegIdx) : Statement (.sneReg x y) :=
  ⟨⟨"SNE_Vx__Vy", 0xF00F, 0x9000⟩, by decide, rfl, accepts_xyn rfl rfl⟩

theorem ldI (nnn : Addr12) : Statement (.ldI nnn) :=
  ⟨⟨"LD_I__nnn", 0xF000, 0xA000⟩, by decide, rfl, accepts_nnn rfl rfl⟩

theorem jpV0 (nnn : Addr12) : Statement (.jpV0 nnn) :=
  ⟨⟨"JP_V0__nnn", 0xF000, 0xB000⟩, by decide, rfl, accepts_nnn rfl rfl⟩

theorem rnd (x : RegIdx) (kk : Byte) : Statement (.rnd x kk) :=
  ⟨⟨"RND_Vx__kk", 0xF000, 0xC000⟩, by decide, rfl, accepts_xkk (m := 0) (v := 0) rfl rfl BitVec.and_zero⟩

theorem drw (x y : RegIdx) (n : Nibble) : Statement (.drw x y n) :=
  ⟨⟨"DRW_Vx__Vy__n", 0xF000, 0xD000⟩, by decide, rfl, by
  rw [encode, wordXYN_eq]
  exact accepts_xkk (m := 0) (v := 0) rfl rfl (BitVec.and_zero)⟩

theorem skp (x : RegIdx) : Statement (.skp x) :=
  ⟨⟨"SKP_Vx", 0xF0FF, 0xE09E⟩, by decide, rfl, accepts_xkk (m := 0xFF) rfl rfl rfl⟩

theorem sknp (x : RegIdx) : Statement (.sknp x) :=
  ⟨⟨"SKNP_Vx", 0xF0FF, 0xE0A1⟩, by decide, rfl, accepts_xkk (m := 0xFF) rfl rfl rfl⟩

theorem ldVxDT (x : RegIdx) : Statement (.ldVxDT x) :=
  ⟨⟨"LD_Vx__DT", 0xF0FF, 0xF007⟩, by decide, rfl, accepts_xkk (m := 0xFF) rfl rfl rfl⟩

theorem ldVxK (x : RegIdx) : Statement (.ldVxK x) :=
  ⟨⟨"LD_Vx__K", 0xF0FF, 0xF00A⟩, by decide, rfl, accepts_xkk (m := 0xFF) rfl rfl rfl⟩

theorem ldDTVx (x : RegIdx) : Statement (.ldDTVx x) :=
  ⟨⟨"LD_DT__Vx", 0xF0FF, 0xF015⟩, by decide, rfl, accepts_xkk (m := 0xFF) rfl rfl rfl⟩

theorem ldSTVx (x : RegIdx) : Statement (.ldSTVx x) :=
  ⟨⟨"LD_ST__Vx", 0xF0FF, 0xF018⟩, by decide, rfl, accepts_xkk (m := 0xFF) rfl rfl rfl⟩

theorem addIVx (x : RegIdx) : Statement (.addIVx x) :=
  ⟨⟨"ADD_I__Vx", 0xF0FF, 0xF01E⟩, by decide, rfl, accepts_xkk (m := 0xFF) rfl rfl rfl⟩

theorem ldFVx (x : RegIdx) : Statement (.ldFVx x) :=
  ⟨⟨"LD_F__Vx", 0xF0FF, 0xF029⟩, by decide, rfl, accepts_xkk (m := 0xFF) rfl rfl rfl⟩

theorem ldBVx (x : RegIdx) : Statement (.ldBVx x) :=
  ⟨⟨"LD_B__Vx", 0xF0FF, 0xF033⟩, by decide, rfl, accepts_xkk (m := 0xFF) rfl rfl rfl⟩

theorem storeRegs (x : RegIdx) : Statement (.storeRegs x) :=
  ⟨⟨"LD__I___Vx", 0xF0FF, 0xF055⟩, by decide, rfl, accepts_xkk (m := 0xFF) rfl rfl rfl⟩

theorem loadRegs (x : RegIdx) : Statement (.loadRegs x) :=
  ⟨⟨"LD_Vx___I", 0xF0FF, 0xF065⟩, by decide, rfl, accepts_xkk (m := 0xFF) rfl rfl rfl⟩

end Sys2Proof.Laws.EncodingRow
end

