-- ==== Sys2Proof/Laws/Session.lean ====
section
/-! SUPPORT. What a move and a session can be (`60_exceptions.md` R247): every move is one event's effect, a session of two parts is the one after the other, and a session has a run exactly when the host keeps its duties. -/

namespace Sys2Proof.Machine

/-- What a move can be: the event is allowed, and phase, state and response are those of the event. -/
theorem perform_eq_some_iff {p q : Phase} {e : Event} {s t : State} {r : Response} :
    perform p e s = some (q, t, r) ↔ p.after e = some q ∧ eventEffect e s = (t, r) := by
  cases h : p.after e <;> simp [perform, h]

@[simp] theorem session_nil (p : Phase) (s : State) : session [] p s = some (p, s, []) := rfl

/-- A session that begins with an allowed event. -/
theorem session_cons_some {p q : Phase} {e : Event} (h : p.after e = some q) (es : List Event) (s : State) :
    session (e :: es) p s = (session es q (eventEffect e s).1).map
      fun out => (out.1, out.2.1, (eventEffect e s).2 :: out.2.2) := by
  simp [session, perform, h]

/-- A session that begins with an event that has no move. -/
theorem session_cons_none {p : Phase} {e : Event} (h : p.after e = none) (es : List Event) (s : State) :
    session (e :: es) p s = none := by
  simp [session, perform, h]

/-- What a session of at least one event can be: one move, then a session from there. -/
theorem session_cons_eq_some {p q : Phase} {e : Event} {es : List Event} {s t : State} {rs : List Response}
    (h : session (e :: es) p s = some (q, t, rs)) :
    ∃ p' rs', p.after e = some p' ∧ session es p' (eventEffect e s).1 = some (q, t, rs') ∧
      rs = (eventEffect e s).2 :: rs' := by
  cases ha : p.after e with
  | none => rw [session_cons_none ha] at h; cases h
  | some p' =>
    rw [session_cons_some ha, Option.map_eq_some_iff] at h
    obtain ⟨⟨_, _, rs'⟩, run, eq⟩ := h
    cases eq
    exact ⟨p', rs', rfl, run, rfl⟩

/-- A session of two parts: the second goes on where the first ended. -/
theorem session_append (es fs : List Event) (p : Phase) (s : State) :
    session (es ++ fs) p s = (session es p s).bind
      fun out => (session fs out.1 out.2.1).map fun out' => (out'.1, out'.2.1, out.2.2 ++ out'.2.2) := by
  induction es generalizing p s with
  | nil => simp
  | cons e es ih =>
    cases ha : p.after e with
    | none => simp [session_cons_none ha]
    | some q =>
      rw [List.cons_append, session_cons_some ha, session_cons_some ha, ih]
      cases session es q (eventEffect e s).1 with
      | none => rfl
      | some out => simp [Function.comp_def]

end Sys2Proof.Machine
end

