-- ==== Sys2Proof/Tests/Slice0.lean ====
section
/-! SUPPORT. The model's own tests: well-formedness, decoding of words written out from the spec's encodings, one step per vector of `spec/95_test_vectors.md` (its id stands in each comment), and for every statement with hypotheses a state and operands that meet them. -/

namespace Sys2Proof.Tests

open Sys2Proof.Machine Sys2Proof.Claims

/-! ## Well-formedness: the two ill-formed terms are refused -/

theorem test_wf_refuses_sys_0E0 : (Instr.sys 0x0E0).wellFormed = false := by decide
theorem test_wf_refuses_sys_0EE : (Instr.sys 0x0EE).wellFormed = false := by decide
theorem test_wf_accepts_neighbours :
    (Instr.sys 0x0E1).wellFormed = true ∧ (Instr.sys 0x000).wellFormed = true ∧ Instr.cls.wellFormed = true := by decide
/-- R5: the constraints of the parameters. -/
theorem test_parameters : Config.constraintsHold = true := by decide
/-- D3: the font has 80 bytes; glyph 3 at 0x00F. -/
theorem test_font : (List.range 5).map (fun i => Memory.read [] (0x00F + i)) = [0xF0, 0x10, 0xF0, 0x10, 0xF0] := by decide

/-! ## Decoding: every constructor by a word written out from R96, fields at distinct values -/

theorem test_decode_control :
    decodeWord 0x00E0 = .ok .cls ∧ decodeWord 0x00EE = .ok .ret ∧ decodeWord 0x0123 = .ok (.sys 0x123) ∧
    decodeWord 0x1ABC = .ok (.jp 0xABC) ∧ decodeWord 0x2210 = .ok (.call 0x210) ∧
    decodeWord 0x3A42 = .ok (.seImm 0xA 0x42) ∧ decodeWord 0x4311 = .ok (.sneImm 3 0x11) ∧
    decodeWord 0x5AB0 = .ok (.seReg 0xA 0xB) ∧ decodeWord 0x9120 = .ok (.sneReg 1 2) ∧
    decodeWord 0xBFFF = .ok (.jpV0 0xFFF) := by decide

theorem test_decode_registers :
    decodeWord 0x6A9C = .ok (.ldImm 0xA 0x9C) ∧ decodeWord 0x7220 = .ok (.addImm 2 0x20) ∧
    decodeWord 0x8120 = .ok (.ldReg 1 2) ∧ decodeWord 0x8121 = .ok (.orReg 1 2) ∧
    decodeWord 0x8122 = .ok (.andReg 1 2) ∧ decodeWord 0x8123 = .ok (.xorReg 1 2) ∧
    decodeWord 0x8FE4 = .ok (.addReg 15 14) ∧ decodeWord 0x8015 = .ok (.subReg 0 1) ∧
    decodeWord 0x8016 = .ok (.shr 0 1) ∧ decodeWord 0x8EF7 = .ok (.subnReg 14 15) ∧
    decodeWord 0x801E = .ok (.shl 0 1) ∧ decodeWord 0xC30F = .ok (.rnd 3 0x0F) := by decide

theorem test_decode_memory_display :
    decodeWord 0xA300 = .ok (.ldI 0x300) ∧ decodeWord 0xF21E = .ok (.addIVx 2) ∧ decodeWord 0xF029 = .ok (.ldFVx 0) ∧
    decodeWord 0xFA33 = .ok (.ldBVx 0xA) ∧ decodeWord 0xF255 = .ok (.storeRegs 2) ∧
    decodeWord 0xF365 = .ok (.loadRegs 3) ∧ decodeWord 0xD125 = .ok (.drw 1 2 5) := by decide

theorem test_decode_input_timers :
    decodeWord 0xE49E = .ok (.skp 4) ∧ decodeWord 0xE4A1 = .ok (.sknp 4) ∧ decodeWord 0xF207 = .ok (.ldVxDT 2) ∧
    decodeWord 0xF10A = .ok (.ldVxK 1) ∧ decodeWord 0xF015 = .ok (.ldDTVx 0) ∧ decodeWord 0xF318 = .ok (.ldSTVx 3) := by
  decide

/-- The illegal words of 95_test_vectors section 2.6 outside family 0. -/
theorem test_decode_rejects :
    ([0x5121, 0x512F, 0x9AB1, 0x8008, 0x8129, 0x812F, 0x812A, 0x812D, 0xE000, 0xE19F, 0xE1A0, 0xE1FF, 0xF000, 0xF0FF,
      0xF130, 0xF175, 0xF185, 0xF108, 0xF11F] : List Word).all
      (fun w => decodeWord w == .error (.unsupportedInstruction w)) = true := by decide

/-- R62: the bytes D1 25, in this order, are the word 0xD125, and what follows is left. -/
theorem test_decode_bytes : decodeBytes [0xD1, 0x25, 0x00] = .ok (.drw 1 2 5, [0x00]) ∧
    encodeBytes (.drw 1 2 5) = [0xD1, 0x25] ∧ decodeBytes [0xD1] = .error .truncated := by decide

theorem test_decodeTableWord : decodeTableWord 16 0xD125 = some (.drw 1 2 5) ∧ decodeTableWord 16 0x5121 = none := by
  decide

/-! ## One step -/

/-- The state after one step of `s` with word `w` placed where the step fetches. -/
def run (s : State) (w : Nat) : Option State :=
  match step (s.withFetchWord 16 w) with
  | .next t => some t
  | .fault _ | .refused _ => none

/-- Reset with some registers set. -/
def regs (l : List (RegIdx × Byte)) : State := l.foldl (fun s p => s.writeV p.1 p.2) State.reset

/-- What most vectors show: the register, `VF` and `pc`. -/
def shows (x : RegIdx) (o : Option State) : Option (Byte × Byte × Word) := o.map fun t => (t.readV x, t.VF, t.pc)

/-- The `pc` after. -/
def pcOf (o : Option State) : Option Word := o.map (·.pc)

/-- The latch after. -/
def latch (o : Option State) : Option (Option Fault) := o.map (·.fault)

/-- The named cells, each as row and column. -/
def cells (s : State) (l : List (Fin 32 × Fin 64)) : List Bool := l.map fun p => Grid.cell s.disp p.1 p.2

-- Control transfer (F1, F5, F6, F7, F14, F15, F8 to F13b, F16, F17, F22)
theorem test_jp : pcOf (run State.reset 0x1ABC) = some 0x0ABC := by decide
theorem test_call : (run { State.reset with pc := 0x0FFC } 0x2400).map (fun t => (t.stack[0], t.sp, t.pc))
    = some (0x0FFE, 1, 0x0400) := by decide
theorem test_call_overflow : latch (run { State.reset with sp := 16 } 0x2300) = some (some (.stackOverflow 0x200 0x2300)) := by
  decide
theorem test_ret : (run { State.reset with sp := 1, stack := State.reset.stack.set 0 0x0ABC } 0x00EE).map
    (fun t => (t.stack[0], t.sp, t.pc)) = some (0x0ABC, 0, 0x0ABC) := by decide
theorem test_ret_underflow : latch (run State.reset 0x00EE) = some (some (.stackUnderflow 0x200 0x00EE)) := by decide
theorem test_seImm : pcOf (run (regs [(0xA, 0x42)]) 0x3A42) = some 0x204 ∧ pcOf (run (regs [(0xA, 0x43)]) 0x3A42) = some 0x202 := by
  decide
theorem test_sneImm : pcOf (run (regs [(0xA, 0x42)]) 0x4A42) = some 0x202 ∧ pcOf (run (regs [(0xA, 0x43)]) 0x4A42) = some 0x204 := by
  decide
theorem test_seReg : pcOf (run (regs [(0xA, 1), (0xB, 1)]) 0x5AB0) = some 0x204 ∧
    pcOf (run (regs [(0xA, 1), (0xB, 2)]) 0x5AB0) = some 0x202 := by decide
theorem test_sneReg : pcOf (run (regs [(0xA, 1), (0xB, 2)]) 0x9AB0) = some 0x204 ∧
    pcOf (run (regs [(0xA, 1), (0xB, 1)]) 0x9AB0) = some 0x202 := by decide
theorem test_jpV0 : pcOf (run (regs [(0, 0x10)]) 0xB300) = some 0x310 := by decide
theorem test_jpV0_not_reduced : pcOf (run (regs [(0, 0xFF)]) 0xBFFF) = some 0x10FE := by decide
theorem test_sys : run State.reset 0x0123 =
    some { State.reset.withFetchWord 16 0x0123 with fault := some (.unsupportedInstruction 0x200 0x0123) } := by decide

-- Register instructions (A1 to A29)
theorem test_ldImm : shows 0xA (run State.reset 0x6A9C) = some (0x9C, 0, 0x202) := by decide
theorem test_addImm : shows 0 (run (regs [(0, 1)]) 0x70FF) = some (0, 0, 0x202) := by decide
theorem test_addImm_VF : shows 15 (run (regs [(15, 0xFF)]) 0x7F01) = some (0, 0, 0x202) := by decide
theorem test_ldReg : shows 0 (run (regs [(1, 0x55)]) 0x8010) = some (0x55, 0, 0x202) := by decide
theorem test_orReg : shows 1 (run (regs [(1, 0xF0), (2, 0x3C), (15, 9)]) 0x8121) = some (0xFC, 9, 0x202) := by decide
theorem test_andReg : shows 1 (run (regs [(1, 0xF0), (2, 0x3C)]) 0x8122) = some (0x30, 0, 0x202) := by decide
theorem test_xorReg : shows 1 (run (regs [(1, 0xF0), (2, 0x3C)]) 0x8123) = some (0xCC, 0, 0x202) := by decide
theorem test_addReg : shows 0 (run (regs [(0, 0xFF), (1, 1)]) 0x8014) = some (0, 1, 0x202) := by decide
theorem test_addReg_into_VF : shows 14 (run (regs [(15, 0xF0), (14, 0x20)]) 0x8FE4) = some (0x20, 1, 0x202) := by decide
theorem test_subReg : shows 0 (run (regs [(0, 5), (1, 0xA)]) 0x8015) = some (0xFB, 0, 0x202) := by decide
theorem test_subReg_equal : shows 0 (run (regs [(0, 0x33), (1, 0x33)]) 0x8015) = some (0, 1, 0x202) := by decide
theorem test_subnReg : shows 0 (run (regs [(0, 0xA), (1, 5)]) 0x8017) = some (0xFB, 0, 0x202) := by decide
theorem test_subnReg_VF_source : shows 14 (run (regs [(15, 1), (14, 0)]) 0x8EF7) = some (1, 1, 0x202) := by decide
theorem test_shr : shows 0 (run (regs [(0, 3)]) 0x8006) = some (1, 1, 0x202) := by decide
theorem test_shr_ignores_y : shows 0 (run (regs [(0, 4), (1, 0xFF)]) 0x8016) = some (2, 0, 0x202) := by decide
theorem test_shl : shows 0 (run (regs [(0, 0x41), (1, 0xFF)]) 0x801E) = some (0x82, 0, 0x202) := by decide
theorem test_shl_VF : shows 15 (run (regs [(15, 0x81)]) 0x8FFE) = some (1, 1, 0x202) := by decide
/-- A31: mask 0 gives 0 whatever the draw; one draw is consumed. -/
theorem test_rnd_mask_zero : (run (regs [(3, 0xAA)]) 0xC300).map (fun t => (t.readV 3, t.draws, t.pc)) = some (0, 1, 0x202) := by
  have h : Config.randomByte 0 &&& 0 = 0 := BitVec.and_zero
  show some (Config.randomByte 0 &&& 0, 1, _) = _
  rw [h]
  rfl

-- Index register and memory (M1 to M24)
theorem test_ldI : (run { State.reset with I := 0xFFFF } 0xAFFF).map (·.I) = some 0x0FFF := by decide
theorem test_addIVx : (run { regs [(2, 1)] with I := 0x0FFF } 0xF21E).map (fun t => (t.I, t.VF)) = some (0x1000, 0) := by decide
theorem test_addIVx_wraps : (run { regs [(15, 0xFF)] with I := 0xFF80 } 0xFF1E).map (fun t => (t.I, t.VF)) = some (0x007F, 0xFF) := by
  decide
theorem test_ldFVx : (run (regs [(0, 0x1A)]) 0xF029).map (·.I) = some 0x0032 := by decide
theorem test_ldBVx : (run { regs [(0, 0x9C)] with I := 0x300 } 0xF033).map (fun t => (t.mem.readBytes 0x300 4, t.I))
    = some ([1, 5, 6, 0], 0x300) := by decide
theorem test_ldBVx_out : latch (run { regs [(0, 0x64)] with I := 0x0FFE } 0xF033) = some (some (.memoryFault 0x1000 0x200 0xF033)) := by
  decide
theorem test_storeRegs : (run { regs [(0, 0x11), (1, 0x22), (2, 0x33), (3, 0x44)] with I := 0x300 } 0xF255).map
    (fun t => (t.mem.readBytes 0x300 4, t.I)) = some ([0x11, 0x22, 0x33, 0], 0x303) := by decide
theorem test_storeRegs_top : (run { regs [(0, 0x77)] with I := 0x0FFF } 0xF055).map (fun t => (t.mem.read 0xFFF, t.I))
    = some (0x77, 0x1000) := by decide
theorem test_loadRegs : (run State.reset 0xF365).map (fun t => ((List.range 5).map (fun i => t.readV (BitVec.ofNat 4 i)), t.I))
    = some ([0xF0, 0x90, 0x90, 0x90, 0], 4) := by decide
theorem test_loadRegs_out : run { regs [(0, 0xEE), (1, 0xEE)] with I := 0x0FFF } 0xF165 =
    some { ({ regs [(0, 0xEE), (1, 0xEE)] with I := 0x0FFF } : State).withFetchWord 16 0xF165 with
      fault := some (.memoryFault 0x1000 0x200 0xF165) } := by decide

-- Display (G2, G5, G9)
theorem test_cls : (run { State.reset with disp := Grid.flip Grid.blank 31 63 } 0x00E0).map (fun t => (cells t [(31, 63), (0, 0)], t.dirty))
    = some ([false, false], true) := by decide
theorem test_drw_wraps : (run { regs [(0, 70), (1, 33)] with I := 0x300, mem := [(0x300, 0x81), (0x301, 0x42)] } 0xD012).map
    (fun t => (cells t [(1, 6), (1, 13), (2, 7), (2, 12), (1, 7), (2, 6), (0, 6)], t.VF, t.dirty))
      = some ([true, true, true, true, false, false, false], 0, true) := by decide
theorem test_drw_collides : (run { State.reset with I := 0x300, disp := Grid.flip Grid.blank 0 0, mem := [(0x300, 0xC0)] } 0xD001).map
    (fun t => (cells t [(0, 0), (0, 1), (0, 2)], t.VF, t.I)) = some ([false, true, false], 1, 0x300) := by decide

-- Keypad and timers (K1, K5, K6, K3, K7, K9, K11, K12, K13)
theorem test_skp : pcOf (run { regs [(4, 7)] with pc := 0x220, key := State.reset.key.set 7 true } 0xE49E) = some 0x224 ∧
    pcOf (run { regs [(4, 7)] with pc := 0x220 } 0xE49E) = some 0x222 := by decide
theorem test_skp_fault : latch (run (regs [(4, 0x10)]) 0xE49E) = some (some (.keyIndexFault 16 0x200 0xE49E)) := by decide
theorem test_sknp : pcOf (run { regs [(4, 7)] with pc := 0x220 } 0xE4A1) = some 0x224 := by decide
theorem test_sknp_fault : latch (run (regs [(4, 0xFF)]) 0xE4A1) = some (some (.keyIndexFault 255 0x200 0xE4A1)) := by decide
theorem test_ldVxK_entry : (run { State.reset with key := (State.reset.key.set 3 true).set 7 true } 0xFF0A).map
    (fun t => (t.awaiting, t.pc, t.VF)) = some (.waiting 15, 0x200, 0) := by decide
theorem test_ldVxK_resolves : (({ State.reset with key := (State.reset.key.set 3 true).set 7 true } : State).waitScan 15).VF = 3 := by
  decide
theorem test_ldVxDT : shows 2 (run { State.reset with DT := 3 } 0xF207) = some (3, 0, 0x202) := by decide
theorem test_ldDTVx : (run (regs [(0, 5)]) 0xF015).map (fun t => (t.DT, t.ST)) = some (5, 0) := by decide
theorem test_ldSTVx : (run (regs [(3, 2)]) 0xF318).map (fun t => (t.ST, tone t)) = some (2, true) := by decide

-- Ticks and host events (T2, T5, section 2.5)
theorem test_tick : ((tick { State.reset with DT := 1, ST := 1 }).2, (tick { State.reset with DT := 0, ST := 255 }).1.ST,
    (tick { State.reset with DT := 0, ST := 255 }).1.DT) = (true, 254, 0) := by decide
theorem test_dirtyAck : (dirtyAck { State.reset with dirty := true }).2 = true ∧
    (dirtyAck { State.reset with dirty := true }).1 = State.reset := by decide
theorem test_load : (load [0x60, 0x05] State.reset).mem.readBytes 0x1FF 4 = [0, 0x60, 0x05, 0] := by decide
/-- R247: no `load` after the first `step`, nothing before `reset`; a later `reset` opens the time to load again. -/
theorem test_moves : (perform .running (.load [0x12]) State.reset).isNone = true ∧ (perform .unborn .step State.reset).isNone = true ∧
    (session [.reset, .step, .reset, .load [0x12]] .unborn State.reset).map (fun out => (out.1, out.2.1.mem)) =
      some (.fresh, [(0x200, 0x12)]) := by decide
theorem test_legal : legalSession [.reset, .load [], .step, .tick] = true ∧ legalSession [.reset, .step, .load []] = false ∧
    legalSession [.step] = false := by decide

-- Fetch (X1 to X7) and R225
theorem test_fetch_faults :
    ([0x0201, 0x0FFF, 0x1000, 0x1001, 0x10FE] : List Word).map (fun a => ({ State.reset with pc := a } : State).fetch)
      = [.error (.fetchMisaligned 0x0201), .error (.fetchMisaligned 0x0FFF), .error (.fetchOutOfRange 0x1000),
         .error (.fetchMisaligned 0x1001), .error (.fetchOutOfRange 0x10FE)] := by decide
theorem test_fetch_font : step { State.reset with pc := 0 } =
    .next { State.reset with pc := 0, fault := some (.unsupportedInstruction 0 0xF090) } := by rfl
theorem test_first_step : step State.reset = .next { State.reset with fault := some (.unsupportedInstruction 0x200 0x0000) } := by
  rfl
theorem test_latched : step { State.reset with fault := some (.fetchMisaligned 0x201) } = .fault (.fetchMisaligned 0x201) := by
  rfl

/-! ## Witnesses: for every statement with hypotheses, a state and operands that meet them, clause by clause, at boundary values -/

theorem witness_DecodeOfEncode : (Instr.sys 0x0EF).wellFormed = true ∧ (Instr.sys 0xFFF).wellFormed = true ∧
    (Instr.loadRegs 15).wellFormed = true := by decide

theorem witness_EncodeOfDecode : decodeWord 0xFF65 = .ok (.loadRegs 15) ∧ decodeWord 0x00ED = .ok (.sys 0x0ED) := by decide

theorem witness_DecoderFollowsOpcodeMap :
    ∃ r ∈ opcodeMap, ∃ r' ∈ opcodeMap, r ≠ r' ∧ r.mnemonic ≠ "SYS_nnn" ∧ r'.mnemonic ≠ "SYS_nnn" :=
  ⟨⟨"CLS", 0xFFFF, 0x00E0⟩, List.mem_append_left _ (List.mem_append_left _ List.mem_cons_self),
    ⟨"RET", 0xFFFF, 0x00EE⟩, List.mem_append_left _ (List.mem_append_left _ (List.mem_cons_of_mem _ List.mem_cons_self)),
    by simp, by simp, by simp⟩

theorem witness_EncodingLines :
    (0x00E0 : Word) &&& 0xFFFF = 0x00E0 ∧ (0x00EE : Word) &&& 0xFFFF = 0x00EE ∧ (0x1FFF : Word) &&& 0xF000 = 0x1000 ∧
    (0x2FFF : Word) &&& 0xF000 = 0x2000 ∧ (0x3FFF : Word) &&& 0xF000 = 0x3000 ∧ (0x4FFF : Word) &&& 0xF000 = 0x4000 ∧
    (0x5FF0 : Word) &&& 0xF00F = 0x5000 ∧ (0x6FFF : Word) &&& 0xF000 = 0x6000 ∧ (0x7FFF : Word) &&& 0xF000 = 0x7000 ∧
    (0x8FF0 : Word) &&& 0xF00F = 0x8000 ∧ (0x8FF1 : Word) &&& 0xF00F = 0x8001 ∧ (0x8FF2 : Word) &&& 0xF00F = 0x8002 ∧
    (0x8FF3 : Word) &&& 0xF00F = 0x8003 ∧ (0x8FF4 : Word) &&& 0xF00F = 0x8004 ∧ (0x8FF5 : Word) &&& 0xF00F = 0x8005 ∧
    (0x8FF6 : Word) &&& 0xF00F = 0x8006 ∧ (0x8FF7 : Word) &&& 0xF00F = 0x8007 ∧ (0x8FFE : Word) &&& 0xF00F = 0x800E ∧
    (0x9FF0 : Word) &&& 0xF00F = 0x9000 ∧ (0xAFFF : Word) &&& 0xF000 = 0xA000 ∧ (0xBFFF : Word) &&& 0xF000 = 0xB000 ∧
    (0xCFFF : Word) &&& 0xF000 = 0xC000 ∧ (0xDFFF : Word) &&& 0xF000 = 0xD000 ∧ (0xEF9E : Word) &&& 0xF0FF = 0xE09E ∧
    (0xEFA1 : Word) &&& 0xF0FF = 0xE0A1 ∧ (0xFF07 : Word) &&& 0xF0FF = 0xF007 ∧ (0xFF0A : Word) &&& 0xF0FF = 0xF00A ∧
    (0xFF15 : Word) &&& 0xF0FF = 0xF015 ∧ (0xFF18 : Word) &&& 0xF0FF = 0xF018 ∧ (0xFF1E : Word) &&& 0xF0FF = 0xF01E ∧
    (0xFF29 : Word) &&& 0xF0FF = 0xF029 ∧ (0xFF33 : Word) &&& 0xF0FF = 0xF033 ∧ (0xFF55 : Word) &&& 0xF0FF = 0xF055 ∧
    (0xFF65 : Word) &&& 0xF0FF = 0xF065 := by decide

theorem witness_EncodingLines_sys :
    ∀ w ∈ ([0x0000, 0x00DF, 0x00E1, 0x00ED, 0x00EF, 0x0FFF] : List Word), w &&& 0xF000 = 0 ∧ w ≠ 0x00E0 ∧ w ≠ 0x00EE := by simp

/-- The words of each illegal family at the ends of its ranges. -/
def illegalWords : List Word :=
  [0x0000, 0x00DF, 0x00E1, 0x00EF, 0x0FFF, 0x5001, 0x5FFF, 0x8008, 0x8FFF, 0x900F, 0xE09D, 0xE0A0, 0xFF06, 0xFF66]

theorem witness_IllegalWordsRaise :
    (∀ w ∈ illegalWords, Ready (State.reset.placeWord w) ∧ (State.reset.placeWord w).fetch = .ok w) ∧
    (∀ w ∈ illegalWords, Illegal w) ∧
    (∀ w ∈ ([0x00E0, 0x00EE, 0x5FF0, 0x8007, 0x800E, 0x9FF0, 0xE09E, 0xEFA1, 0xFF65] : List Word), ¬ Illegal w) := by
  refine ⟨fun w _ => ⟨⟨rfl, rfl⟩, (State.fetch_placeWord rfl w).1⟩, ?_, ?_⟩
  · simp [illegalWords, Illegal]
  · simp [Illegal]

theorem witness_StepContract :
    (∃ s : State, s.fault = some (.fetchMisaligned 1)) ∧
    (∃ s : State, s.fault = none ∧ s.awaiting = .waiting 15) ∧
    (∃ s : State, Ready s ∧ s.fetch = .error (.fetchMisaligned 0xFFFF)) ∧
    (∃ s : State, Ready s ∧ s.fetch = .error (.fetchOutOfRange 0x1000)) ∧
    (∃ s : State, Ready s ∧ s.fetch = .ok 0x5121 ∧ decodeWord 0x5121 = .error (.unsupportedInstruction 0x5121)) ∧
    (∃ s t : State, step s = .next t ∧ t.fault = none) ∧ (∃ s t : State, step s = .next t ∧ t.fault ≠ none) :=
  ⟨⟨{ State.reset with fault := some (.fetchMisaligned 1) }, rfl⟩, ⟨{ State.reset with awaiting := .waiting 15 }, rfl, rfl⟩,
    ⟨{ State.reset with pc := 0xFFFF }, ⟨rfl, rfl⟩, by decide⟩, ⟨{ State.reset with pc := 0x1000 }, ⟨rfl, rfl⟩, by decide⟩,
    ⟨State.reset.placeWord 0x5121, ⟨rfl, rfl⟩, by decide⟩, ⟨State.reset.placeWord 0x1200, _, rfl, rfl⟩,
    ⟨State.reset, _, rfl, by decide⟩⟩

theorem witness_StepRunsDecodedInstruction :
    ∃ s : State, Ready s ∧ s.pc.toNat % 2 = 0 ∧ s.pc.toNat + 1 < 4096 ∧ s.pc = 0x0FFE ∧
      decodeWord (s.mem.read s.pc.toNat ++ s.mem.read (s.pc.toNat + 1)) = .ok (.ldImm 0 0x11) :=
  ⟨({ State.reset with pc := 0x0FFE } : State).placeWord 0x6011, ⟨rfl, rfl⟩, by decide, by decide, by decide, by decide⟩

theorem witness_FetchRule : (0x0FFF : Word).toNat % 2 = 1 ∧ ((0x1000 : Word).toNat % 2 = 0 ∧ 4096 ≤ (0x1000 : Word).toNat + 1) ∧
    ((0x0FFE : Word).toNat % 2 = 0 ∧ (0x0FFE : Word).toNat + 1 < 4096) := by decide

theorem witness_FaultsArePrecise :
    (∃ s t : State, s.fault = none ∧ step s = .next t ∧ t.fault = some (.fetchOutOfRange 0x1000)) ∧
    (∃ s t : State, s.fault = none ∧ step s = .next t ∧ t.fault = some (.stackUnderflow 0x200 0x00EE)) :=
  ⟨⟨{ State.reset with pc := 0x1000 }, _, rfl, rfl, by decide⟩, ⟨State.reset.placeWord 0x00EE, _, rfl, rfl, by decide⟩⟩

theorem witness_WhoRaisesWhat :
    ∃ s t : State, s.fault = none ∧ exec (.drw 0 1 15) s = .next t ∧ t.fault = some (.memoryFault 0x1000 0x200 0xD01F) :=
  ⟨{ State.reset with I := 0x0FF2 }, _, rfl, rfl, by decide⟩

theorem witness_FaultedMachineIsInert :
    ∃ s : State, s.fault = some (.keyIndexFault 16 0x200 0xE49E) ∧ (eventEffect .reset s).1.fault ≠ some (.keyIndexFault 16 0x200 0xE49E) :=
  ⟨{ State.reset with fault := some (.keyIndexFault 16 0x200 0xE49E) }, rfl, by decide⟩

theorem witness_EveryStepGoesOn : State.reset.fault = none := rfl

theorem witness_ReturnPops : State.reset.sp.val = 0 ∧
    ∃ s : State, s.sp = 16 ∧ 0 < s.sp.val ∧ s.stack[s.sp.val - 1]? = some 0x1000 :=
  ⟨rfl, { State.reset with sp := 16, stack := State.reset.stack.set 15 0x1000 }, rfl, by decide, by decide⟩

theorem witness_CallPushes :
    (∃ s : State, s.sp.val = 16) ∧ (∃ s : State, s.sp.val = 15 ∧ s.sp.val < 16 ∧ 14 ≠ s.sp.val) :=
  ⟨⟨{ State.reset with sp := 16 }, rfl⟩, ⟨{ State.reset with sp := 15 }, rfl, by decide, by decide⟩⟩

theorem witness_SkipsCompare :
    (State.reset.readV 15 = 0 ∧ State.reset.readV 15 = State.reset.readV 15) ∧
    ((regs [(15, 0xFF)]).readV 15 ≠ 0 ∧ (regs [(15, 0xFF)]).readV 15 ≠ (regs [(15, 0xFF)]).readV 14) := by decide

theorem witness_CallThenReturn : ∃ s t u : State, s.sp.val = 15 ∧ s.sp.val < 16 ∧ exec (.call 0xFFF) s = .next t ∧
    u.sp = t.sp ∧ u.stack = t.stack ∧ u.pc ≠ t.pc :=
  ⟨{ State.reset with sp := 15 }, _, { State.reset with sp := 16, stack := State.reset.stack.set 15 0x202 }, rfl, by decide, rfl,
    rfl, rfl, by decide⟩

theorem witness_ImmediateForms : ¬ (0 : RegIdx) = 15 := by decide

theorem witness_MoveAndLogic : ¬ (15 : RegIdx) = 14 := by decide

theorem witness_ArithmeticWithFlag : (14 : RegIdx) ≠ 15 ∧ ¬ ((13 : RegIdx) = 14 ∨ (13 : RegIdx) = 15) := by decide

theorem witness_ShiftsByOne : (0 : RegIdx) ≠ 15 ∧ ¬ ((1 : RegIdx) = 0 ∨ (1 : RegIdx) = 15) := by decide

theorem witness_RandomIsMasked : ¬ (0 : RegIdx) = 15 := by decide

theorem witness_FlagRegisterWriters : ∃ s t u v : State, s.fault = none ∧
    (exec (.addReg 15 14) s = .next t ∧ t.fault = none ∧ writesFlag (.addReg 15 14) = true) ∧
    (exec (.drw 0 0 0) s = .next u ∧ u.fault = none ∧ writesFlag (.drw 0 0 0) = true) ∧
    (exec (.loadRegs 14) s = .next v ∧ v.fault = none ∧ writesFlag (.loadRegs 14) = false ∧ namesVF (.loadRegs 14) = false) :=
  ⟨State.reset, _, _, _, rfl, ⟨rfl, rfl, rfl⟩, ⟨rfl, rfl, rfl⟩, ⟨rfl, rfl, rfl, rfl⟩⟩

theorem witness_StoreBcd :
    (∃ s : State, s.I.toNat + 2 = 4096 ∧ s.I.toNat + 2 ≥ 4096) ∧
    (∃ s : State, s.mem.wf = true ∧ s.I.toNat + 2 = 4095 ∧ s.I.toNat + 2 < 4096) :=
  ⟨⟨{ State.reset with I := 0x0FFE }, by decide, by decide⟩,
    ⟨{ State.reset with I := 0x0FFD }, by decide, by decide, by decide⟩⟩

theorem witness_StoreRegisters :
    (∃ s : State, s.I.toNat + (15 : RegIdx).toNat = 4096 ∧ s.I.toNat + (15 : RegIdx).toNat ≥ 4096) ∧
    (∃ s : State, s.mem.wf = true ∧ s.I.toNat + (15 : RegIdx).toNat = 4095 ∧ s.I.toNat + (15 : RegIdx).toNat < 4096) :=
  ⟨⟨{ State.reset with I := 0x0FF1 }, by decide, by decide⟩,
    ⟨{ State.reset with I := 0x0FF0 }, by decide, by decide, by decide⟩⟩

theorem witness_LoadRegisters :
    (∃ s : State, s.I.toNat + (0 : RegIdx).toNat = 4096 ∧ s.I.toNat + (0 : RegIdx).toNat ≥ 4096) ∧
    (∃ s : State, s.I.toNat + (0 : RegIdx).toNat = 4095 ∧ s.I.toNat + (0 : RegIdx).toNat < 4096 ∧
      ¬ (1 : RegIdx).toNat ≤ (0 : RegIdx).toNat) :=
  ⟨⟨{ State.reset with I := 0x1000 }, by decide, by decide⟩,
    ⟨{ State.reset with I := 0x0FFF }, by decide, by decide, by decide⟩⟩

/-- `Fx55` up to the top of memory, with a fetch of its last two bytes and of the word just below them all; `Fx33` there, with
a fetch of the word whose low byte alone is stored. -/
theorem witness_StoresAreFetched :
    (∃ s t u v : State, s.mem.wf = true ∧ s.I.toNat + (15 : RegIdx).toNat = 4095 ∧ exec (.storeRegs 15) s = .next t ∧
      (u.mem = t.mem ∧ u.pc.toNat % 2 = 0 ∧ u.pc.toNat + 1 = 4095) ∧
      (v.mem = t.mem ∧ v.pc.toNat % 2 = 0 ∧ v.pc.toNat + 1 < 4096)) ∧
    (∃ s t u : State, s.mem.wf = true ∧ s.I.toNat + 2 = 4095 ∧ exec (.ldBVx 0) s = .next t ∧
      u.mem = t.mem ∧ u.pc.toNat % 2 = 0 ∧ u.pc.toNat + 1 = s.I.toNat) :=
  ⟨⟨{ State.reset with I := 0x0FF0 }, _, { State.reset with pc := 0x0FFE }, { State.reset with pc := 0x0FEE }, by decide, by decide, rfl,
      ⟨by decide, by decide, by decide⟩, by decide, by decide, by decide⟩,
    ⟨{ regs [(0, 0xFF)] with I := 0x0FFD }, _, { State.reset with pc := 0x0FFC, mem := [(0x0FFD, 2), (0x0FFE, 5), (0x0FFF, 5)] },
      by decide, by decide, rfl, by decide, by decide, by decide⟩⟩

/-- The spec's example of 95_test_vectors section 2.3: the word stored at 0x202 is the next one fetched. -/
theorem test_self_modifying :
    (run { regs [(0, 0x12), (1, 0x02)] with I := 0x202 } 0xF155).map (·.fetch) = some (.ok 0x1202) := by decide

theorem witness_DrawSprite :
    (∃ s : State, (15 : Nibble).toNat > 0 ∧ s.I.toNat + (15 : Nibble).toNat - 1 = 4096) ∧
    (∃ s : State, s.I.toNat + (15 : Nibble).toNat - 1 = 4095) ∧ (0 : Nibble).toNat = 0 ∧
    (∃ s : State, s.I.toNat + (1 : Nibble).toNat - 1 < 4096 ∧ Covers s 0 1 1 0 0 ∧ Grid.cell s.disp 0 0 = true) ∧
    (∃ s : State, s.I.toNat + (1 : Nibble).toNat - 1 < 4096 ∧ ¬ Covers s 0 1 1 0 0 ∧
      ∀ r c, Covers s 0 1 1 r c → Grid.cell s.disp r c = false) := by
  refine ⟨⟨{ State.reset with I := 0x0FF2 }, by decide, by decide⟩, ⟨{ State.reset with I := 0x0FF1 }, by decide⟩, rfl,
    ⟨{ State.reset with I := 0x000, disp := Grid.flip Grid.blank 0 0 }, by decide, ⟨0, 0, by decide⟩, by decide⟩,
    ⟨{ State.reset with I := 0x300 }, by decide, ?_⟩⟩
  have none_on : ∀ r c, ¬ Covers { State.reset with I := 0x300 } 0 1 1 r c := by
    rintro r c ⟨i, j, hi, _, _, _, on⟩
    have hi : i < 1 := hi
    obtain rfl : i = 0 := by omega
    have zero : Memory.read [] (0x300 + 0) = (0 : Byte) := by decide
    have on : (Memory.read [] (0x300 + 0)).getLsbD (7 - j) = true := on
    rw [zero] at on
    simp at on
  exact ⟨none_on 0 0, fun r c h => absurd h (none_on r c)⟩

theorem witness_DrawTwiceErases : ∃ s t u : State, (14 : RegIdx) ≠ 15 ∧ s.fault = none ∧ (∀ r c, Grid.cell s.disp r c = false) ∧
    exec (.drw 14 14 5) s = .next t ∧ t.fault = none ∧ exec (.drw 14 14 5) t = .next u :=
  ⟨State.reset, _, _, by decide, rfl, fun r c => by simp [State.reset, Grid.cell], rfl, rfl, rfl⟩

theorem witness_KeySkips : ((regs [(4, 16)]).readV 4).toNat > 15 ∧ ((regs [(4, 15)]).readV 4).toNat = (15 : KeyIdx).toNat := by decide

theorem witness_WaitingStep :
    (∃ s : State, s.fault = none ∧ s.awaiting = .waiting 15 ∧ ∀ k, s.readKey k = false) ∧
    (∃ s : State, s.fault = none ∧ s.awaiting = .waiting 15 ∧ s.readKey 15 = true ∧
      ∀ j : KeyIdx, j.toNat < (15 : KeyIdx).toNat → s.readKey j = false) :=
  ⟨⟨{ State.reset with awaiting := .waiting 15 }, rfl, rfl, by decide⟩,
    ⟨{ State.reset with awaiting := .waiting 15, key := State.reset.key.set 15 true }, rfl, rfl, by decide, by decide⟩⟩

theorem witness_WaitHolds : ∃ s : State, s.fault = none ∧ s.awaiting = .waiting 0 ∧ ∀ j, s.readKey j = false :=
  ⟨{ State.reset with awaiting := .waiting 0 }, rfl, rfl, by decide⟩

theorem witness_DelayTimerCopies : ¬ (0 : RegIdx) = 15 := by decide

theorem witness_KeySetAndDisplayRead : (14 : KeyIdx) ≠ 15 := by decide

theorem witness_LoadPlacesImage : State.reset.mem.wf = true ∧ ([0x60, 0x05] : List Byte)[1]? = some 0x05 ∧ 0x200 + 1 < 4096 ∧
    (List.replicate 3584 (0x11 : Byte))[3583]? = some 0x11 ∧ 0x200 + 3583 < 4096 ∧
    (0x1FF < 0x200 ∧ 0x200 + ([0x60, 0x05] : List Byte).length ≤ 0x202) :=
  ⟨rfl, rfl, by decide, List.getElem?_replicate_of_lt (by decide), by decide, by decide, by decide⟩

theorem witness_ResetValues : ∃ s t : State, s ≠ State.reset ∧ t = resetEvent s :=
  ⟨{ State.reset with pc := 0x204 }, _, by decide, rfl⟩

theorem witness_PcAfterEachInstruction :
    (∃ s t : State, fetchable s.pc = true ∧ s.pc = 0x0FFE ∧ s.fault = none ∧ exec (.seImm 0 0) s = .next t ∧ t.fault = none) ∧
    (∃ s t : State, fetchable s.pc = true ∧ s.fault = none ∧ exec .ret s = .next t ∧ t.fault ≠ none) ∧
    (∃ s t : State, s.fault = none ∧ step s = .next t ∧ t.fault ≠ none) ∧
    (∃ s t : State, s.awaiting = .waiting 3 ∧ step s = .next t) :=
  ⟨⟨{ State.reset with pc := 0x0FFE }, _, by decide, rfl, rfl, rfl, rfl⟩, ⟨State.reset, _, by decide, rfl, rfl, by decide⟩,
    ⟨State.reset, _, rfl, rfl, by decide⟩, ⟨{ State.reset with awaiting := .waiting 3 }, _, rfl, rfl⟩⟩

theorem witness_WriteAccessTable : ∃ t : State, exec (.storeRegs 2) State.reset = .next t := ⟨_, rfl⟩

theorem witness_InputsAreOnlyPolled : (∀ x, Instr.drw 0 1 5 ≠ .ldVxDT x) ∧ (∀ x, Instr.ldVxK 0 ≠ .skp x) ∧
    (∀ x, Instr.ldVxK 0 ≠ .sknp x) := by decide

/-- A subroutine of one live call, at its return. -/
def inSubroutine : State := ({ State.reset with sp := 1, stack := State.reset.stack.set 0 0x1000 } : State).placeWord 0x00EE

theorem witness_StepKeepsInvariant : ∃ t, MachineInvariant inSubroutine ∧ step inSubroutine = .next t := by
  refine ⟨_, ⟨by decide, fun j h hj => ?_, by decide, fun r h => ?_, fun f h => ?_⟩, rfl⟩
  · have : j < 1 := hj
    obtain rfl : j = 0 := by omega
    exact (⟨rfl, by decide⟩ : IsReturnAddress 0x1000)
  · exact absurd h (by decide +revert)
  · exact absurd h (by decide +revert)

theorem witness_SessionKeepsInvariant :
    (∃ q t rs, session [.step, .tick] .running inSubroutine = some (q, t, rs) ∧ MachineInvariant inSubroutine) ∧
    (∃ q t rs, session [.reset, .load [0x12], .step] .unborn { inSubroutine with mem := [(0x5000, 1)] } = some (q, t, rs)) := by
  obtain ⟨_, h, _⟩ := witness_StepKeepsInvariant
  exact ⟨⟨_, _, _, rfl, h⟩, ⟨_, _, _, rfl⟩⟩

theorem witness_HostDutiesGateMoves :
    (perform .unborn .reset State.reset).isSome = true ∧ (perform .fresh (.load []) State.reset).isSome = true ∧
    (perform .running .tick State.reset).isSome = true ∧ ∃ q t r, perform .fresh .step State.reset = some (q, t, r) :=
  ⟨rfl, rfl, rfl, _, _, _, rfl⟩

theorem witness_LoadOnlyBeforeFirstStep : (session ([.reset, .tick] ++ [.load [0x12]]) .unborn State.reset).isSome = true ∧
    (session [.reset, .tick] .unborn State.reset).isSome = true := ⟨rfl, rfl⟩

theorem witness_EndedStaysEnded : Ended (State.reset.placeWord 0x1200) := ⟨⟨rfl, rfl⟩, by decide⟩

end Sys2Proof.Tests
end

section
/-! SUPPORT. Proofs of the statements about the state as a whole (`10_state.md`): one frame rule per state operation, one
lemma that says once what an instruction can answer, and the invariant's clauses derived from it. -/

namespace Sys2Proof.Proofs

open Sys2Proof.Machine Sys2Proof.Claims

/-! ### Frames: one rule per state operation (R35) -/

/-- `OnlyChanges`, and the memory the same list of cells where the frame does not name it. -/
structure Frame (parts : List Part) (s t : State) : Prop where
  unchanged : OnlyChanges parts s t
  mem_eq : .mem ∉ parts → t.mem = s.mem

namespace Frame

variable {parts : List Part} {s t u : State}

theorem refl (parts : List Part) (s : State) : Frame parts s s :=
  ⟨fun p _ => by cases p <;> simp [Unchanged], fun _ => rfl⟩

theorem trans (h : Frame parts s t) (h' : Frame parts t u) : Frame parts s u := by
  refine ⟨fun p hp => ?_, fun hp => (h'.mem_eq hp).trans (h.mem_eq hp)⟩
  have e := h.unchanged p hp
  have e' := h'.unchanged p hp
  cases p
  case mem => exact fun a => (e' a).trans (e a)
  all_goals exact Eq.trans e' e

/-- An update of one part `q` keeps a frame that names `q`. That the update changes `q` alone is read off each field. -/
theorem andThen {q : Part} (h : Frame parts s t) (named : q ∈ parts)
    (only : OnlyChanges [q] t u := by intro p hp; cases p <;> simp [Unchanged] at hp ⊢)
    (mem : q ≠ .mem → u.mem = t.mem := by intro; rfl) : Frame parts s u := by
  have step : Frame parts t u := by
    refine ⟨fun p hp => only p fun m => ?_, fun hp => mem fun e => ?_⟩
    · exact hp (List.mem_singleton.mp m ▸ named)
    · exact hp (e ▸ named)
  exact h.trans step

theorem writeV (h : Frame parts s t) (x : RegIdx) (b : Byte) (named : .V ∈ parts := by simp [mayWrite]) :
    Frame parts s (t.writeV x b) := h.andThen named

theorem writeI (h : Frame parts s t) (a : Word) (named : .I ∈ parts := by simp [mayWrite]) :
    Frame parts s (t.writeI a) := h.andThen named

theorem jump (h : Frame parts s t) (a : Word) (named : .pc ∈ parts := by simp [mayWrite]) :
    Frame parts s (t.jump a) := h.andThen named

theorem advance (h : Frame parts s t) (named : .pc ∈ parts := by simp [mayWrite]) :
    Frame parts s t.advance := h.jump _ named

theorem skipIf (h : Frame parts s t) (taken : Bool) (named : .pc ∈ parts := by simp [mayWrite]) :
    Frame parts s (t.skipIf taken) := by
  cases taken
  · exact h.advance named
  · exact (h.advance named).advance named

theorem writeResultThenFlag (h : Frame parts s t) (x : RegIdx) (b : Byte) (flag : Bool)
    (named : .V ∈ parts := by simp [mayWrite]) :
    Frame parts s (t.writeResultThenFlag x b flag) := (h.writeV x b named).writeV _ _ named

theorem randomByte (h : Frame parts s t) (named : .draws ∈ parts := by simp [mayWrite]) :
    Frame parts s t.randomByte.2 := h.andThen named

theorem storeAtI (h : Frame parts s t) (bytes : List Byte) (named : .mem ∈ parts := by simp [mayWrite]) :
    Frame parts s (t.storeAtI bytes) := h.andThen named (mem := absurd rfl)

theorem loadFromI (h : Frame parts s t) (x : RegIdx) (named : .V ∈ parts := by simp [mayWrite]) :
    Frame parts s (t.loadFromI x) := h.andThen named (mem := fun _ => t.loadFromI_mem x)

theorem setDisp (h : Frame parts s t) (g : Grid) (disp : .disp ∈ parts := by simp [mayWrite])
    (dirty : .dirty ∈ parts := by simp [mayWrite]) :
    Frame parts s { t with disp := g, dirty := true } :=
  (h.andThen (u := { t with disp := g }) disp).andThen dirty

theorem setDT (h : Frame parts s t) (b : Byte) (named : .DT ∈ parts := by simp [mayWrite]) :
    Frame parts s { t with DT := b } := h.andThen named

theorem setST (h : Frame parts s t) (b : Byte) (named : .ST ∈ parts := by simp [mayWrite]) :
    Frame parts s { t with ST := b } := h.andThen named

theorem setAwaiting (h : Frame parts s t) (a : Awaiting) (named : .awaiting ∈ parts := by simp [mayWrite]) :
    Frame parts s { t with awaiting := a } := h.andThen named

theorem setFault (h : Frame parts s t) (f : Option Fault) (named : .fault ∈ parts := by simp [mayWrite]) :
    Frame parts s { t with fault := f } := h.andThen named

theorem setStack (h : Frame parts s t) (st : Vector Word Config.stackCapacity) (n : Fin (Config.stackCapacity + 1))
    (stack : .stack ∈ parts := by simp [mayWrite]) (sp : .sp ∈ parts := by simp [mayWrite]) :
    Frame parts s { t with stack := st, sp := n } :=
  (h.andThen (u := { t with stack := st }) stack).andThen sp

end Frame

/-! ### Where `pc` goes (R25, R26) -/

/-- No sum of a fetchable address and an instruction length wraps (R26). -/
theorem toNat_add_of_fetchable {a : Word} (h : fetchable a = true) :
    (a + 2).toNat = a.toNat + 2 ∧ (a + 4).toNat = a.toNat + 4 := by
  have := (fetchable_iff.mp h).2
  rw [memSize_eq] at this
  constructor <;> bv_omega

theorem toNat_skipIf_pc {s : State} (h : fetchable s.pc = true) (taken : Bool) :
    (s.skipIf taken).pc.toNat = s.pc.toNat + if taken then 4 else 2 := by
  rw [State.skipIf_pc]
  cases taken
  · exact (toNat_add_of_fetchable h).1
  · exact (toNat_add_of_fetchable h).2

theorem toNat_addrOperand (nnn : Addr12) : (addrOperand nnn).toNat = nnn.toNat := by
  simp only [addrOperand, BitVec.toNat_setWidth]
  omega

theorem toNat_addrOperand_add_zext16 (nnn : Addr12) (b : Byte) :
    (addrOperand nnn + zext16 b).toNat = nnn.toNat + b.toNat := by
  simp only [addrOperand, zext16, BitVec.toNat_add, BitVec.toNat_setWidth]
  omega

/-- The key a value names is the one key with that number (R200). -/
theorem keyOfValue_eq_some_iff {v : Byte} {k : KeyIdx} : keyOfValue v = some k ↔ k.toNat = v.toNat := by
  unfold keyOfValue
  split
  · next small =>
    have : (v.setWidth 4 : KeyIdx).toNat = v.toNat := by rw [BitVec.toNat_setWidth]; exact Nat.mod_eq_of_lt small
    rw [Option.some_inj, ← this, eq_comm, BitVec.toNat_inj]
  · next large =>
    have large : 16 ≤ v.toNat := Nat.le_of_not_lt large
    simpa using (show k.toNat ≠ v.toNat by omega)

/-- A statement about some key with a value's number is one about the key the value names. -/
theorem exists_key_iff {v : Byte} {k : KeyIdx} (named : keyOfValue v = some k) (P : KeyIdx → Prop) :
    (∃ j : KeyIdx, j.toNat = v.toNat ∧ P j) ↔ P k := by
  simp [← keyOfValue_eq_some_iff, named]

/-! ### What an instruction can answer

The side conditions of the rules below that only read the instruction's row of a table (`named`, `may`, `next`) are found
by `simp [mayWrite]` or `rfl` at each use. -/

/-- The instruction ran without a fault from `s` to `t`: it kept the latch and every part its row does not name (R35), and
left `pc` where R25 says. -/
structure Completes (i : Instr) (s t : State) : Prop where
  frame : Frame (mayWrite i) s t
  fault : t.fault = s.fault
  pc : fetchable s.pc = true → t.pc.toNat = newPc i s

/-- The answers an instruction can give: a fault it may raise, at `pc`, with the latch alone changed (R224), or a state it
completes in. -/
inductive Answer (i : Instr) (s : State) : Result → Prop where
  | raises (f : Fault) (at_pc : f.pc = s.pc := by rfl) (may : .fault ∈ mayWrite i := by simp [mayWrite]) :
    Answer i s (.next { s with fault := some f })
  | completes {t : State} (h : Completes i s t) : Answer i s (.next t)

/-- An instruction that ends in `pc <- pc + 2` (R25). -/
theorem Completes.advance {i : Instr} {s t : State} (frame : Frame (mayWrite i) s t)
    (fault : t.fault = s.fault := by rfl) (pc : t.pc = s.pc := by rfl) (next : newPc i s = s.pc.toNat + 2 := by rfl)
    (named : .pc ∈ mayWrite i := by simp [mayWrite]) : Completes i s t.advance where
  frame := frame.advance named
  fault := fault
  pc h := by rw [State.advance_pc, State.nextPc_eq, pc, (toNat_add_of_fetchable h).1, next]

/-- An instruction that sets `pc` alone to an absolute target (R25). -/
theorem Completes.jump {i : Instr} {s : State} {target : Word} (next : target.toNat = newPc i s)
    (named : .pc ∈ mayWrite i := by simp [mayWrite]) : Completes i s (s.jump target) where
  frame := (Frame.refl _ s).jump target named
  fault := rfl
  pc _ := next

/-- A skip, its condition as R25's table reads it. -/
theorem Completes.skipIf {i : Instr} {s : State} {taken : Bool}
    (next : newPc i s = s.pc.toNat + if taken then 4 else 2) (named : .pc ∈ mayWrite i := by simp [mayWrite]) :
    Completes i s (s.skipIf taken) where
  frame := (Frame.refl _ s).skipIf taken named
  fault := State.skipIf_fault s taken
  pc h := (toNat_skipIf_pc h taken).trans next.symm

theorem Answer.withRange {i : Instr} {s body : State} {count : Nat} (h : Completes i s body)
    (may : .fault ∈ mayWrite i := by simp [mayWrite]) : Answer i s (s.withRange i count body) := by
  rcases s.withRange_cases i count body with ⟨_, e⟩ | ⟨_, e⟩ <;> rw [e]
  · exact .completes h
  · exact .raises _ rfl may

theorem Answer.skipIfKey {i : Instr} {s : State} {x : RegIdx} {wanted : Bool}
    (next : ∀ k, keyOfValue (s.readV x) = some k →
      newPc i s = s.pc.toNat + if s.readKey k == wanted then 4 else 2)
    (pc : .pc ∈ mayWrite i := by simp [mayWrite]) (may : .fault ∈ mayWrite i := by simp [mayWrite]) :
    Answer i s (s.skipIfKey i x wanted) := by
  unfold State.skipIfKey
  cases h : keyOfValue (s.readV x) with
  | none => exact .raises _ rfl may
  | some k => exact .completes (.skipIf (next k h) pc)

/-- What a return can do (R120). -/
theorem execRet_cases (s : State) :
    (∃ v n, 0 < s.sp.val ∧ s.stack[s.sp.val - 1]? = some v ∧ n.val = s.sp.val - 1 ∧
      execRet s = .next (({ s with sp := n } : State).jump v)) ∨
    (s.sp.val = 0 ∧ execRet s = s.raise (.stackUnderflow s.pc (encode .ret))) := by
  unfold execRet
  rcases Nat.eq_zero_or_pos s.sp.val with empty | live
  · exact .inr ⟨empty, by rw [State.pop_empty empty]⟩
  · obtain ⟨v, t, e, top, sp, ht⟩ := State.pop_live live
    exact .inl ⟨v, t.sp, live, top, sp, by rw [e, ← ht]⟩

/-- What a call can do (R122). -/
theorem execCall_cases (nnn : Addr12) (s : State) :
    (∃ (room : s.sp.val < Config.stackCapacity) (n : Fin (Config.stackCapacity + 1)), n.val = s.sp.val + 1 ∧
      execCall nnn s = .next
        (({ s with stack := s.stack.set s.sp.val s.nextPc room, sp := n } : State).jump (addrOperand nnn))) ∨
    (s.sp.val = Config.stackCapacity ∧ execCall nnn s = s.raise (.stackOverflow s.pc (encode (.call nnn)))) := by
  unfold execCall
  by_cases room : s.sp.val < Config.stackCapacity
  · obtain ⟨t, e, sp, stack, ht⟩ := State.push_room room s.nextPc
    exact .inl ⟨room, t.sp, sp, by rw [e, ← stack, ← ht]⟩
  · have full : s.sp.val = Config.stackCapacity := by have := s.sp.isLt; omega
    exact .inr ⟨full, by rw [State.push_full full]⟩

theorem execRet_answer (s : State) : Answer .ret s (execRet s) := by
  rcases execRet_cases s with ⟨v, n, -, top, -, e⟩ | ⟨-, e⟩ <;> rw [e]
  · exact .completes ⟨((Frame.refl _ s).setStack s.stack n).jump v, rfl, fun _ => by simp [newPc, top]⟩
  · exact .raises _

theorem execCall_answer (nnn : Addr12) (s : State) : Answer (.call nnn) s (execCall nnn s) := by
  rcases execCall_cases nnn s with ⟨_, n, -, e⟩ | ⟨-, e⟩ <;> rw [e]
  · exact .completes ⟨((Frame.refl _ s).setStack _ n).jump _, rfl, fun _ => toNat_addrOperand nnn⟩
  · exact .raises _

/-- What every instruction answers on every state. -/
theorem exec_answer (i : Instr) (s : State) : Answer i s (exec i s) := by
  have same : ∀ parts, Frame parts s s := fun parts => Frame.refl parts s
  cases i with
  | cls => exact .completes (.advance ((same _).setDisp _))
  | ret => exact execRet_answer s
  | sys nnn => exact .raises _
  | jp nnn => exact .completes (.jump (toNat_addrOperand nnn))
  | call nnn => exact execCall_answer nnn s
  | jpV0 nnn => exact .completes (.jump (toNat_addrOperand_add_zext16 nnn _))
  | seImm x kk => exact .completes (.skipIf (by simp [newPc]))
  | sneImm x kk => exact .completes (.skipIf (by simp [newPc]))
  | seReg x y => exact .completes (.skipIf (by simp [newPc]))
  | sneReg x y => exact .completes (.skipIf (by simp [newPc]))
  | skp x => exact .skipIfKey fun k h => by simp [newPc, exists_key_iff h (s.readKey · = true)]
  | sknp x => exact .skipIfKey fun k h => by simp [newPc, exists_key_iff h (s.readKey · = false)]
  | ldImm x _ | addImm x _ | ldReg x _ | orReg x _ | andReg x _ | xorReg x _ | ldVxDT x =>
    exact .completes (.advance ((same _).writeV x _))
  | addReg x _ | subReg x _ | subnReg x _ | shr x _ | shl x _ =>
    exact .completes (.advance ((same _).writeResultThenFlag x _ _))
  | rnd x kk => exact .completes (.advance ((same _).randomByte.writeV x _))
  | ldI | addIVx | ldFVx => exact .completes (.advance ((same _).writeI _))
  | drw x y n => exact .withRange (.advance (((same _).setDisp _).writeV _ _))
  | ldVxK x => exact .completes ⟨(same _).setAwaiting _, rfl, fun _ => rfl⟩
  | ldDTVx x => exact .completes (.advance ((same _).setDT _))
  | ldSTVx x => exact .completes (.advance ((same _).setST _))
  | ldBVx x => exact .withRange (.advance ((same _).storeAtI _))
  | storeRegs x => exact .withRange (.advance (((same _).storeAtI _).writeI _))
  | loadRegs x =>
    exact .withRange (.advance (((same _).loadFromI x).writeI _) (s.loadFromI_fault x) (s.loadFromI_pc x))

/-- A next state of an instruction is the old one with a fault at `pc` latched, or one it completes in. -/
theorem exec_next_cases {i : Instr} {s t : State} (h : exec i s = .next t) :
    (∃ f : Fault, f.pc = s.pc ∧ .fault ∈ mayWrite i ∧ t = { s with fault := some f }) ∨ Completes i s t := by
  have answer := exec_answer i s
  rw [h] at answer
  cases answer with
  | raises f at_pc may => exact .inl ⟨f, at_pc, may, rfl⟩
  | completes c => exact .inr c

/-- Faults included, an instruction changes only the parts its row of R35 names. -/
theorem exec_frame {i : Instr} {s t : State} (h : exec i s = .next t) : Frame (mayWrite i) s t := by
  rcases exec_next_cases h with ⟨f, -, may, rfl⟩ | c
  · exact (Frame.refl _ s).setFault (some f) may
  · exact c.frame

/-- An instruction that leaves no fault has completed. -/
theorem exec_completes {i : Instr} {s t : State} (h : exec i s = .next t) (ok : t.fault = none) : Completes i s t := by
  rcases exec_next_cases h with ⟨f, -, -, rfl⟩ | c
  · cases ok
  · exact c

/-! ### What a step can answer -/

/-- A next state of a step comes from an unfaulted one: by the waiting step, by latching a fault at `pc`, or by completing
an instruction fetched from a fetchable `pc` (R90). -/
theorem step_next_cases {s t : State} (h : step s = .next t) :
    s.fault = none ∧
    ((∃ r, s.awaiting = .waiting r ∧ t = s.waitScan r) ∨
     (s.awaiting = .notWaiting ∧ ∃ f : Fault, f.pc = s.pc ∧ t = { s with fault := some f }) ∨
     (s.awaiting = .notWaiting ∧ fetchable s.pc = true ∧ ∃ i, exec i s = .next t ∧ Completes i s t)) := by
  rcases step_cases s with ⟨f, -, e⟩ | ⟨r, ok, wait, e⟩ | ⟨f, ok, ready, fetch, e⟩ |
    ⟨w, _, ok, ready, -, -, e⟩ | ⟨w, i, ok, ready, fetch, -, e⟩ <;> rw [e] at h
  · cases h
  · cases h
    exact ⟨ok, .inl ⟨r, wait, rfl⟩⟩
  · cases h
    refine ⟨ok, .inr (.inl ⟨ready, f, ?_, rfl⟩)⟩
    rcases s.fetch_cases with ⟨-, e⟩ | ⟨-, -, e⟩ | ⟨-, e⟩ <;> rw [e] at fetch <;> cases fetch <;> rfl
  · cases h
    exact ⟨ok, .inr (.inl ⟨ready, _, rfl, rfl⟩)⟩
  · refine ⟨ok, .inr ?_⟩
    rcases exec_next_cases h with ⟨f, at_pc, -, rfl⟩ | c
    · exact .inl ⟨ready, f, at_pc, rfl⟩
    · rcases s.fetch_cases with ⟨-, e⟩ | ⟨-, -, e⟩ | ⟨ok, -⟩
      · rw [e] at fetch; cases fetch
      · rw [e] at fetch; cases fetch
      · exact .inr ⟨ready, ok, i, h, c⟩

/-! ### The clauses of the machine's invariant -/

/-- Every live stack entry is a return address (R27, R120). -/
def LiveReturnAddresses (s : State) : Prop :=
  ∀ j (h : j < Config.stackCapacity), j < s.sp.val → IsReturnAddress s.stack[j]

/-- `pc + 2` of a fetchable `pc` is a return address (R122). -/
theorem isReturnAddress_nextPc {s : State} (h : fetchable s.pc = true) : IsReturnAddress s.nextPc := by
  obtain ⟨even, bound⟩ := fetchable_iff.mp h
  rw [IsReturnAddress, State.nextPc_eq, (toNat_add_of_fetchable h).1]
  omega

/-- A call keeps the live entries and adds `pc + 2`. -/
theorem execCall_keeps_stack {nnn : Addr12} {s t : State} (live : LiveReturnAddresses s) (ok : fetchable s.pc = true)
    (h : execCall nnn s = .next t) : LiveReturnAddresses t := by
  rcases execCall_cases nnn s with ⟨room, n, sp, e⟩ | ⟨-, e⟩ <;> cases e.symm.trans h
  · intro j hj lt
    simp only [State.jump_stack, State.jump_sp, sp, Vector.getElem_set] at lt ⊢
    split
    · exact isReturnAddress_nextPc ok
    · exact live j hj (by omega)
  · exact live

/-- A return only drops the top entry. -/
theorem execRet_keeps_stack {s t : State} (live : LiveReturnAddresses s) (h : execRet s = .next t) :
    LiveReturnAddresses t := by
  rcases execRet_cases s with ⟨v, n, -, -, sp, e⟩ | ⟨-, e⟩ <;> cases e.symm.trans h
  · intro j hj lt
    simp only [State.jump_sp, sp] at lt
    exact live j hj (by omega)
  · exact live

/-- Only call and return write the stack. -/
theorem exec_keeps_stack {i : Instr} {s t : State} (live : LiveReturnAddresses s) (ok : fetchable s.pc = true)
    (h : exec i s = .next t) : LiveReturnAddresses t := by
  cases i with
  | call nnn => exact execCall_keeps_stack live ok h
  | ret => exact execRet_keeps_stack live h
  | _ =>
    have stack : t.stack = s.stack := (exec_frame h).unchanged .stack (by simp [mayWrite])
    have sp : t.sp = s.sp := (exec_frame h).unchanged .sp (by simp [mayWrite])
    simpa only [LiveReturnAddresses, stack, sp] using live

/-- A store whose range exists keeps memory canonical, and one whose range does not stores nothing (R67). -/
theorem withRange_keeps_wf {s body t : State} {i : Instr} {count : Nat} {bytes : List Byte} (wf : s.mem.wf = true)
    (h : s.withRange i count body = .next t) (mem : body.mem = s.mem.writeBytes s.I.toNat bytes)
    (length : bytes.length = count) (some_byte : count ≠ 0) : t.mem.wf = true := by
  rcases s.withRange_cases i count body with ⟨fits, e⟩ | ⟨-, e⟩ <;> cases e.symm.trans h
  · rw [mem]
    exact Memory.writeBytes_wf wf (length ▸ fits.resolve_left some_byte)
  · exact wf

/-- Only the two storing instructions write memory, and each keeps it canonical (R34). -/
theorem exec_keeps_wf {i : Instr} {s t : State} (wf : s.mem.wf = true) (h : exec i s = .next t) : t.mem.wf = true := by
  cases i with
  | ldBVx x => exact withRange_keeps_wf wf h rfl rfl (by decide)
  | storeRegs x => exact withRange_keeps_wf wf h rfl (by simp) (Nat.succ_ne_zero _)
  | _ => rw [(exec_frame h).mem_eq (by simp [mayWrite])]; exact wf

/-- No skip leaves R26's bound. -/
theorem add_four_le_pcBound {a : Word} (h : fetchable a = true) : a.toNat + 4 ≤ pcBound := by
  have bound : pcBound = 4350 := rfl
  have := (fetchable_iff.mp h).2
  rw [memSize_eq] at this
  omega

/-- Every target of R25's table lies within R26's bound; a return's does when the popped entry is a return address. -/
theorem newPc_le_pcBound {i : Instr} {s : State} (ok : fetchable s.pc = true) (live : LiveReturnAddresses s)
    (ret : i = .ret → 0 < s.sp.val) : newPc i s ≤ pcBound := by
  have bound : pcBound = 4350 := rfl
  have pc := add_four_le_pcBound ok
  have skip : ∀ taken : Bool, (s.pc.toNat + if taken then 4 else 2) ≤ pcBound := fun taken => by split <;> omega
  cases i with
  | jp nnn | call nnn => have := nnn.isLt; simp only [newPc]; omega
  | jpV0 nnn => have := nnn.isLt; have := (s.readV 0).isLt; simp only [newPc]; omega
  | ret =>
    have pos := ret rfl
    have lt : s.sp.val - 1 < Config.stackCapacity := by have := s.sp.isLt; omega
    have top := (live (s.sp.val - 1) lt (by omega)).2
    have e : newPc .ret s = (s.stack[s.sp.val - 1]).toNat := by simp [newPc, lt]
    rw [memSize_eq] at top
    omega
  | seImm | sneImm | seReg | sneReg | skp | sknp => exact skip _
  | _ => simp only [newPc]; omega

/-- A return that completes popped a live entry. -/
theorem sp_pos_of_ret_completes {s t : State} (h : exec .ret s = .next t) (ok : t.fault = none) : 0 < s.sp.val := by
  rcases execRet_cases s with ⟨_, _, live, -⟩ | ⟨-, e⟩
  · exact live
  · cases e.symm.trans h
    cases ok

/-- Latching a fault at `pc` outside a wait keeps the invariant (R224). -/
theorem latch_keeps_invariant {s : State} (inv : MachineInvariant s) (ready : s.awaiting = .notWaiting) {f : Fault}
    (at_pc : f.pc = s.pc) : MachineInvariant { s with fault := some f } where
  memory := inv.memory
  stack := inv.stack
  pc := inv.pc
  waiting r wait := by rw [ready] at wait; cases wait
  fault g latched := by cases latched; exact at_pc

/-- A waiting step keeps the invariant: with a key down it ends the wait at `pc + 2` (R204). -/
theorem waitScan_keeps_invariant {s : State} (inv : MachineInvariant s) {r : RegIdx} (wait : s.awaiting = .waiting r) :
    MachineInvariant (s.waitScan r) := by
  obtain ⟨ok, noFault⟩ := inv.waiting r wait
  rcases s.waitScan_cases r with ⟨-, e⟩ | ⟨k, -, e⟩ <;> rw [e]
  · exact inv
  · exact {
      memory := inv.memory
      stack := inv.stack
      pc := (toNat_add_of_fetchable ok).1.trans_le ((Nat.add_le_add_left (by decide) _).trans (add_four_le_pcBound ok))
      waiting := fun _ still => by cases still
      fault := fun f latched => by cases noFault.symm.trans latched }

/-- An instruction that completes from a ready state with a fetchable `pc` keeps the invariant. -/
theorem completes_keeps_invariant {i : Instr} {s t : State} (inv : MachineInvariant s) (noFault : s.fault = none)
    (ready : s.awaiting = .notWaiting) (ok : fetchable s.pc = true) (h : exec i s = .next t) (c : Completes i s t) :
    MachineInvariant t where
  memory := exec_keeps_wf inv.memory h
  stack := exec_keeps_stack inv.stack ok h
  pc := by
    rw [c.pc ok]
    refine newPc_le_pcBound ok inv.stack fun e => ?_
    subst e
    exact sp_pos_of_ret_completes h (c.fault.trans noFault)
  waiting r wait := by
    refine ⟨?_, c.fault.trans noFault⟩
    cases i with
    | ldVxK x =>
      have pc : t.pc = s.pc := c.frame.unchanged .pc (by simp [mayWrite])
      rwa [pc]
    | _ =>
      have kept : t.awaiting = s.awaiting := c.frame.unchanged .awaiting (by simp [mayWrite])
      rw [kept, ready] at wait
      cases wait
  fault f latched := by cases (c.fault.trans noFault).symm.trans latched

/-- Settles O51: the step latches a fault, scans the keys, or completes an instruction, and each keeps the invariant. -/
theorem stepKeepsInvariant : Obligations.StepKeepsInvariant := by
  intro s t inv h
  obtain ⟨noFault, ⟨r, wait, rfl⟩ | ⟨ready, f, at_pc, rfl⟩ | ⟨ready, ok, i, e, c⟩⟩ := step_next_cases h
  · exact waitScan_keeps_invariant inv wait
  · exact latch_keeps_invariant inv ready at_pc
  · exact completes_keeps_invariant inv noFault ready ok e c

/-- Settles O48: the frame of every instruction's answer. -/
theorem writeAccessTable : Obligations.WriteAccessTable := fun _ _ _ h => (exec_frame h).unchanged

/-! ### How a step leaves `pc` -/

theorem exec_pc {i : Instr} {s t : State} (ok : fetchable s.pc = true) (noFault : s.fault = none)
    (h : exec i s = .next t) : (t.fault = none → t.pc.toNat = newPc i s) ∧ (t.fault ≠ none → t.pc = s.pc) := by
  refine ⟨fun done => (exec_completes h done).pc ok, fun faulted => ?_⟩
  rcases exec_next_cases h with ⟨f, -, -, rfl⟩ | c
  · rfl
  · exact absurd (c.fault.trans noFault) faulted

theorem waitScan_fault (s : State) (r : RegIdx) : (s.waitScan r).fault = s.fault := by
  rcases s.waitScan_cases r with ⟨-, e⟩ | ⟨k, -, e⟩
  · rw [e]
  · rw [e]; rfl

theorem step_pc_of_fault {s t : State} (h : step s = .next t) (faulted : t.fault ≠ none) : t.pc = s.pc := by
  obtain ⟨noFault, ⟨r, -, rfl⟩ | ⟨-, f, -, rfl⟩ | ⟨-, -, i, -, c⟩⟩ := step_next_cases h
  · exact absurd ((waitScan_fault s r).trans noFault) faulted
  · rfl
  · exact absurd (c.fault.trans noFault) faulted

/-- The waiting step advances `pc` exactly when some key is down (R204). -/
theorem waitScan_pc (s : State) (r : RegIdx) :
    (s.waitScan r).pc = s.pc + if ∃ k, s.readKey k = true then 2 else 0 := by
  rcases s.waitScan_cases r with ⟨none, e⟩ | ⟨k, found, e⟩ <;> rw [e]
  · simp [State.firstKey_eq_none_iff.mp none]
  · rw [if_pos ⟨k, (State.firstKey_eq_some found).1⟩]
    rfl

/-- Settles O47: `pc` after an instruction, after a fault, and after a waiting step. -/
theorem pcAfterEachInstruction : Obligations.PcAfterEachInstruction := by
  refine ⟨fun i s t ok noFault h => exec_pc ok noFault h, fun s t _ h => step_pc_of_fault h, fun s t r wait h => ?_⟩
  obtain ⟨-, ⟨q, -, rfl⟩ | ⟨ready, -⟩ | ⟨ready, -⟩⟩ := step_next_cases h
  · exact waitScan_pc s q
  · rw [wait] at ready; cases ready
  · rw [wait] at ready; cases ready

/-! ### Who writes `VF` (R22) -/

theorem flagByte_eq_zero_or_one (b : Bool) : flagByte b = 0 ∨ flagByte b = 1 := by cases b <;> simp [flagByte]

theorem VF_writeVF (s : State) (b : Byte) : (s.writeVF b).VF = b := State.readV_writeV_same ..

theorem VF_writeV_other (s : State) {x : RegIdx} (b : Byte) (h : (x == 15) = false) : (s.writeV x b).VF = s.VF :=
  State.readV_writeV_other s b (beq_eq_false_iff_ne.mp h).symm

/-- Without a fault a ranged instruction ends in its body. -/
theorem eq_body_of_withRange {s body t : State} {i : Instr} {count : Nat} (h : s.withRange i count body = .next t)
    (done : t.fault = none) : t = body := by
  rcases s.withRange_cases i count body with ⟨-, e⟩ | ⟨-, e⟩ <;> cases e.symm.trans h
  · rfl
  · cases done

/-- The six flag writers end with a flag in `VF`, the last thing they write (R147). -/
theorem exec_VF_of_writesFlag {i : Instr} {s t : State} (flag : writesFlag i = true) (h : exec i s = .next t)
    (done : t.fault = none) : ∃ f, t.VF = flagByte f := by
  cases i with
  | addReg | subReg | subnReg | shr | shl => cases h; exact ⟨_, VF_writeVF ..⟩
  | drw x y n =>
    rw [eq_body_of_withRange h done]
    exact ⟨_, VF_writeVF ..⟩
  | _ => cases flag

/-- An instruction that neither writes a flag nor names `VF` leaves it alone, faults included. -/
theorem exec_VF_of_not_named {i : Instr} {s t : State} (noFlag : writesFlag i = false) (other : namesVF i = false)
    (h : exec i s = .next t) : t.VF = s.VF := by
  cases i with
  | addReg | subReg | subnReg | shr | shl | drw => cases noFlag
  | ldImm | addImm | ldReg | orReg | andReg | xorReg | ldVxDT | rnd => cases h; exact VF_writeV_other _ _ other
  | loadRegs x =>
    have ne : x ≠ 15 := beq_eq_false_iff_ne.mp other
    have notAll : ¬ 15 ≤ x.toNat := by bv_omega
    rcases s.withRange_cases (.loadRegs x) (regCount x) ((s.loadFromI x).advanceI x).advance with
      ⟨-, e⟩ | ⟨-, e⟩ <;> cases e.symm.trans h
    · exact (State.readV_loadFromI s x 15).trans (if_neg notAll)
    · rfl
  | _ => exact State.readV_congr ((exec_frame h).unchanged .V (by simp [mayWrite])) _

/-- Settles O27: the flag writers end with a flag, and no other instruction writes a register it does not name. -/
theorem flagRegisterWriters : Obligations.FlagRegisterWriters := by
  refine fun i s t _ h done => ⟨fun flag => ?_, fun noFlag other => exec_VF_of_not_named noFlag other h⟩
  obtain ⟨f, e⟩ := exec_VF_of_writesFlag flag h done
  rw [e]
  exact flagByte_eq_zero_or_one f

/-! ### Reset (R36) -/

/-- The reset contents hold the font from `FONT_BASE` up and zero above it (R31). -/
theorem resetByte_font {a : Nat} {b : Byte} (h : Config.fontData[a]? = some b) : resetByte a = b := by
  rw [resetByte, if_pos (Nat.zero_le a), Nat.sub_zero, List.getD_eq_getElem?_getD, h, Option.getD_some]

theorem resetByte_above_font {a : Nat} (h : 80 ≤ a) : resetByte a = 0 := by
  have : Config.fontData.length ≤ a := h
  simp [resetByte, this]

/-- Settles O46: the reset event keeps only the draw counter, so every field is that of `State.reset`. -/
theorem resetValues : Obligations.ResetValues := by
  refine ⟨fun s => rfl, fun t ht => ?_⟩
  obtain ⟨n, rfl⟩ : ∃ n, t = { State.reset with draws := n } := by
    rcases ht with rfl | ⟨s, rfl⟩
    · exact ⟨0, rfl⟩
    · exact ⟨s.draws, rfl⟩
  refine ⟨fun r => ?_, rfl, rfl, rfl, fun j hj => ?_, rfl, rfl, fun k => ?_, Grid.cell_blank, rfl, rfl, rfl,
    fun _ _ => resetByte_font, fun _ => resetByte_above_font⟩
  · simp [State.readV, State.reset]
  · simp [State.reset, hj]
  · simp [State.readKey, State.reset]

/-- Settles O50: after reset memory lists nothing, no stack entry is live, and neither wait nor latch is set. -/
theorem resetMeetsInvariant : Obligations.ResetMeetsInvariant where
  memory := rfl
  stack _ _ live := absurd live (Nat.not_lt_zero _)
  pc := by decide
  waiting _ wait := by cases wait
  fault _ latched := by cases latched

end Sys2Proof.Proofs
end

section
/-! SUPPORT. Proofs of the statements about fetch and memory (`20_memory.md`): the two bytes of a fetched word, and what
every later fetch gives after a store. -/

namespace Sys2Proof.Proofs

open Sys2Proof.Machine Sys2Proof.Claims

/-! ### The fetch (R62) -/

@[simp] theorem highByte_wordOfBytes (high low : Byte) : highByte (wordOfBytes high low) = high :=
  BitVec.extractLsb'_append_eq_left

@[simp] theorem lowByte_wordOfBytes (high low : Byte) : lowByte (wordOfBytes high low) = low :=
  BitVec.extractLsb'_append_eq_right

/-- A fetch from an even `pc` inside memory reads the word of its two bytes. -/
theorem fetch_of_even_inside {s : State} (even : s.pc.toNat % 2 = 0) (inside : s.pc.toNat + 1 < Config.memSize) :
    s.fetch = .ok (wordOfBytes (s.mem.read s.pc.toNat) (s.mem.read (s.pc.toNat + 1))) := by
  rcases s.fetch_cases with ⟨odd, -⟩ | ⟨-, beyond, -⟩ | ⟨-, e⟩
  · omega
  · omega
  · exact e

/-- Settles O10: the three outcomes of a fetch, of which each guard leaves one. -/
theorem fetchRule : Obligations.FetchRule := by
  intro s
  rcases s.fetch_cases with ⟨odd, e⟩ | ⟨even, beyond, e⟩ | ⟨ok, e⟩
  · exact ⟨fun _ => e, fun even => by omega, fun even => by omega⟩
  · exact ⟨fun odd => by omega, fun _ _ => e, fun _ inside => by omega⟩
  · obtain ⟨even, inside⟩ := fetchable_iff.mp ok
    exact ⟨fun odd => by omega, fun _ beyond => by omega,
      fun _ _ => ⟨_, e, highByte_wordOfBytes .., lowByte_wordOfBytes ..⟩⟩

/-! ### A store is seen by every later fetch (R73, D31) -/

/-- Byte by byte, memory after a run of bytes was stored from `I` upward: the run's own byte where one was stored, the old
byte elsewhere. -/
theorem read_writeBytes_eq_byteAfterStore {s : State} {run : List Byte} {bytes : Nat → Byte} (wf : s.mem.wf = true)
    (fits : s.I.toNat + run.length ≤ Config.memSize) (values : ∀ k (h : k < run.length), run[k] = bytes k) (a : Nat) :
    (s.mem.writeBytes s.I.toNat run).read a = byteAfterStore s run.length bytes a := by
  rw [Memory.read_writeBytes wf fits, byteAfterStore]
  by_cases above : s.I.toNat ≤ a
  · by_cases stored : a < s.I.toNat + run.length
    · have h : a - s.I.toNat < run.length := by omega
      rw [if_pos above, if_pos ⟨above, stored⟩, List.getD_eq_getElem _ _ h, values]
    · rw [if_pos above, if_neg (by omega), List.getD_eq_default _ _ (by omega)]
  · rw [if_neg above, if_neg (by omega)]

/-- A ranged instruction that stores a run of bytes from `I` upward, all of them inside memory, is seen by every later
fetch. -/
theorem withRange_store_is_fetched {s body : State} {i : Instr} {count : Nat} {run : List Byte} {bytes : Nat → Byte}
    (wf : s.mem.wf = true) (mem : body.mem = s.mem.writeBytes s.I.toNat run) (length : run.length = count)
    (fits : s.I.toNat + count ≤ Config.memSize) (values : ∀ k (h : k < run.length), run[k] = bytes k) :
    ∃ t, s.withRange i count body = .next t ∧ FetchSeesStore s t count bytes := by
  subst length
  refine ⟨body, State.withRange_ok (.inr fits) i body, fun u same even inside => ?_⟩
  rw [fetch_of_even_inside even inside, same, mem, read_writeBytes_eq_byteAfterStore wf fits values,
    read_writeBytes_eq_byteAfterStore wf fits values]

/-- The bytes `Fx55` stores are the registers' values, ascending (R174). -/
theorem getElem_map_readV_regRange (s : State) (x : RegIdx) (k : Nat) (h : k < ((regRange x).map s.readV).length) :
    ((regRange x).map s.readV)[k] = s.readV (BitVec.ofNat 4 k) := by
  rw [List.getElem_map, getElem_regRange]

/-- The bytes `Fx33` stores are the decimal digits, hundreds first (R173). -/
theorem getElem_bcdDigits (v : Byte) (k : Nat) (h : k < (bcdDigits v).length) :
    (bcdDigits v)[k] = BitVec.ofNat 8 (v.toNat / 10 ^ (2 - k) % 10) := by
  have three : k < 3 := h
  have hundreds : v.toNat / 100 < 10 := by omega
  interval_cases k
  · exact congrArg (BitVec.ofNat 8) (Nat.mod_eq_of_lt hundreds).symm
  · rfl
  · exact congrArg (fun n => BitVec.ofNat 8 (n % 10)) (Nat.div_one _).symm

/-- Settles O32: both instructions store a run of bytes from `I` upward in the range they checked. -/
theorem storesAreFetched : Obligations.StoresAreFetched := by
  refine ⟨fun s x wf inside => ?_, fun s x wf inside => ?_⟩
  · exact withRange_store_is_fetched (i := .storeRegs x) wf rfl (by simp) inside
      (getElem_map_readV_regRange s x)
  · exact withRange_store_is_fetched (i := .ldBVx x) wf rfl rfl inside (getElem_bcdDigits _)

end Sys2Proof.Proofs
end

section
/-! SUPPORT. Proofs of the statements about encoding and the step (`30_encoding.md`). The round trip of decoder and encoder
comes first and the rows of the opcode map follow from it; what the decoder reads is then split once by families
(`decodeWord_reading`), and the illegal words and the opcode map rest on that split. -/

namespace Sys2Proof.Proofs

open Sys2Proof.Machine Sys2Proof.Claims

/-! ### The legacy form `0nnn` (R96: only after rows 1 and 2 have failed) -/

theorem wordNNN_inj {op : Nibble} {a b : Addr12} : wordNNN op a = wordNNN op b ↔ a = b :=
  ⟨fun h => by simpa using congrArg fieldNNN h, fun h => h ▸ rfl⟩

/-- A legacy form is well formed when its word is neither of the two exact matches. -/
theorem sys_wellFormed_iff {nnn : Addr12} :
    (Instr.sys nnn).wellFormed = true ↔ wordNNN 0 nnn ≠ 0x00E0 ∧ wordNNN 0 nnn ≠ 0x00EE := by
  rw [Instr.wellFormed, takenByFixedRows, Bool.not_eq_true', Bool.or_eq_false_iff, beq_eq_false_iff_ne,
    beq_eq_false_iff_ne]
  exact and_congr (wordNNN_inj (b := 0x0E0)).not.symm (wordNNN_inj (b := 0x0EE)).not.symm

theorem decodeFamily0_wordNNN {nnn : Addr12} (wf : (Instr.sys nnn).wellFormed = true) :
    decodeFamily0 (wordNNN 0 nnn) = .sys nnn := by
  obtain ⟨notCls, notRet⟩ := sys_wellFormed_iff.mp wf
  rw [decodeFamily0, if_neg notCls, if_neg notRet, fieldNNN_wordNNN]

/-! ### The round trip from the instruction (R95, R96) -/

/-- The fields of an instruction's word give back its family, its sub-selector and its operands. -/
theorem decodeWord_encode {i : Instr} (wf : i.wellFormed = true) : decodeWord (encode i) = .ok i := by
  cases i with
  | cls => rfl
  | ret => rfl
  | sys nnn =>
    rw [encode, decodeWord, fieldOp_wordNNN]
    exact congrArg Except.ok (decodeFamily0_wordNNN wf)
  | _ => simp [encode, decodeWord, decodeFamily8, decodeFamilyE, decodeFamilyF]

theorem decodeBytes_bytesOfWord_append (w : Word) (rest : List Byte) :
    decodeBytes (bytesOfWord w ++ rest) = (decodeWord w).map fun i => (i, rest) :=
  congrArg (fun v => (decodeWord v).map fun i => (i, rest)) (wordOfBytes_bytesOfWord w)

/-- Settles O1: the round trip on words, and on bytes because a word is read back from its two bytes. -/
theorem decodeOfEncode : Obligations.DecodeOfEncode := fun i wf =>
  ⟨decodeWord_encode wf, fun rest => by
    rw [encodeBytes, decodeBytes_bytesOfWord_append, decodeWord_encode wf, Except.map]⟩

/-! ### A word of known family and sub-selector, from its operands -/

theorem wordNNN_of_op {w : Word} {op : Nibble} (family : fieldOp w = op) : wordNNN op (fieldNNN w) = w :=
  family ▸ word_of_fieldsNNN w

theorem wordXKK_of_op {w : Word} {op : Nibble} (family : fieldOp w = op) : wordXKK op (fieldX w) (fieldKK w) = w :=
  family ▸ word_of_fieldsXKK w

theorem wordXKK_of_op_kk {w : Word} {op : Nibble} {kk : Byte} (family : fieldOp w = op) (sub : fieldKK w = kk) :
    wordXKK op (fieldX w) kk = w :=
  sub ▸ wordXKK_of_op family

theorem wordXYN_of_op {w : Word} {op : Nibble} (family : fieldOp w = op) :
    wordXYN op (fieldX w) (fieldY w) (fieldN w) = w :=
  family ▸ word_of_fieldsXYN w

theorem wordXYN_of_op_n {w : Word} {op n : Nibble} (family : fieldOp w = op) (sub : fieldN w = n) :
    wordXYN op (fieldX w) (fieldY w) n = w :=
  sub ▸ wordXYN_of_op family

theorem sys_wellFormed_of_word {w : Word} (family : fieldOp w = 0) (notCls : w ≠ 0x00E0) (notRet : w ≠ 0x00EE) :
    (Instr.sys (fieldNNN w)).wellFormed = true := by
  rw [sys_wellFormed_iff, wordNNN_of_op family]
  exact ⟨notCls, notRet⟩

/-! ### The encoding line of a row, by format (R93, R96)

A row's mask fixes the family, and for some formats a sub-selector; so the row's word is that of the row's instruction on
the word's own operands, and the round trip decodes it. -/

theorem decodeWord_of_encode {w : Word} {i : Instr} (wf : i.wellFormed = true) (word : encode i = w) :
    decodeWord w = .ok i :=
  word ▸ decodeWord_encode wf

theorem encoded_fixed {i : Instr} (wf : i.wellFormed = true) : Encoded 0xFFFF (encode i) (fun _ => i) := fun _ h =>
  decodeWord_of_encode wf (h.symm.trans BitVec.and_allOnes)

theorem encoded_nnn (i : Addr12 → Instr) {v : Word}
    (word : ∀ nnn, encode (i nnn) = wordNNN (fieldOp v) nnn := by intros; rfl)
    (wf : ∀ nnn, (i nnn).wellFormed = true := by intros; rfl) :
    Encoded 0xF000 v (fun w => i (fieldNNN w)) := fun _ h =>
  decodeWord_of_encode (wf _) ((word _).trans (wordNNN_of_op (fieldOp_of_mask h)))

theorem encoded_xkk (i : RegIdx → Byte → Instr) {v : Word}
    (word : ∀ x kk, encode (i x kk) = wordXKK (fieldOp v) x kk := by intros; rfl)
    (wf : ∀ x kk, (i x kk).wellFormed = true := by intros; rfl) :
    Encoded 0xF000 v (fun w => i (fieldX w) (fieldKK w)) := fun _ h =>
  decodeWord_of_encode (wf _ _) ((word _ _).trans (wordXKK_of_op (fieldOp_of_mask h)))

theorem encoded_xyn (i : RegIdx → RegIdx → Nibble → Instr) {v : Word}
    (word : ∀ x y n, encode (i x y n) = wordXYN (fieldOp v) x y n := by intros; rfl)
    (wf : ∀ x y n, (i x y n).wellFormed = true := by intros; rfl) :
    Encoded 0xF000 v (fun w => i (fieldX w) (fieldY w) (fieldN w)) := fun _ h =>
  decodeWord_of_encode (wf _ _ _) ((word _ _ _).trans (wordXYN_of_op (fieldOp_of_mask h)))

/-- Format `XYN` with `n` a sub-selector. -/
theorem encoded_xy (i : RegIdx → RegIdx → Instr) {v : Word}
    (word : ∀ x y, encode (i x y) = wordXYN (fieldOp v) x y (fieldN v) := by intros; rfl)
    (wf : ∀ x y, (i x y).wellFormed = true := by intros; rfl) :
    Encoded 0xF00F v (fun w => i (fieldX w) (fieldY w)) := fun _ h =>
  have ⟨family, sub⟩ := fields_of_mask_n h
  decodeWord_of_encode (wf _ _) ((word _ _).trans (wordXYN_of_op_n family sub))

/-- Format `XSUB`. -/
theorem encoded_xsub (i : RegIdx → Instr) {v : Word}
    (word : ∀ x, encode (i x) = wordXKK (fieldOp v) x (fieldKK v) := by intros; rfl)
    (wf : ∀ x, (i x).wellFormed = true := by intros; rfl) :
    Encoded 0xF0FF v (fun w => i (fieldX w)) := fun _ h =>
  have ⟨family, sub⟩ := fields_of_mask_kk h
  decodeWord_of_encode (wf _) ((word _).trans (wordXKK_of_op_kk family sub))

/-- Row 3 of R96. -/
theorem decodeWord_sys {w : Word} (row : w &&& 0xF000 = 0) (notCls : w ≠ 0x00E0) (notRet : w ≠ 0x00EE) :
    decodeWord w = .ok (.sys (fieldNNN w)) :=
  have family : fieldOp w = 0 := fieldOp_of_mask row
  decodeWord_of_encode (sys_wellFormed_of_word family notCls notRet) (wordNNN_of_op family)

/-- Settles O4: each row by the lemma of its format. -/
theorem encodingLines : Obligations.EncodingLines :=
  ⟨encoded_fixed (i := .cls) rfl, encoded_fixed (i := .ret) rfl, fun _ => decodeWord_sys,
    encoded_nnn .jp, encoded_nnn .call, encoded_xkk .seImm, encoded_xkk .sneImm, encoded_xy .seReg,
    encoded_xkk .ldImm, encoded_xkk .addImm,
    encoded_xy .ldReg, encoded_xy .orReg, encoded_xy .andReg, encoded_xy .xorReg, encoded_xy .addReg, encoded_xy .subReg,
    encoded_xy .shr, encoded_xy .subnReg, encoded_xy .shl, encoded_xy .sneReg,
    encoded_nnn .ldI, encoded_nnn .jpV0, encoded_xkk .rnd, encoded_xyn .drw, encoded_xsub .skp, encoded_xsub .sknp,
    encoded_xsub .ldVxDT, encoded_xsub .ldVxK, encoded_xsub .ldDTVx, encoded_xsub .ldSTVx, encoded_xsub .addIVx,
    encoded_xsub .ldFVx, encoded_xsub .ldBVx, encoded_xsub .storeRegs, encoded_xsub .loadRegs⟩

/-! ### The fields as numbers (R92) -/

theorem toNat_fieldOp (w : Word) : (fieldOp w).toNat = w.toNat / 4096 := by
  rw [fieldOp, BitVec.extractLsb'_toNat, Nat.shiftRight_eq_div_pow]
  omega

theorem toNat_fieldX (w : Word) : (fieldX w).toNat = w.toNat / 256 % 16 := by
  rw [fieldX, BitVec.extractLsb'_toNat, Nat.shiftRight_eq_div_pow]

theorem toNat_fieldY (w : Word) : (fieldY w).toNat = w.toNat / 16 % 16 := by
  rw [fieldY, BitVec.extractLsb'_toNat, Nat.shiftRight_eq_div_pow]

theorem toNat_fieldN (w : Word) : (fieldN w).toNat = w.toNat % 16 := by
  rw [fieldN, BitVec.extractLsb'_toNat, Nat.shiftRight_zero]

theorem toNat_fieldKK (w : Word) : (fieldKK w).toNat = w.toNat % 256 := by
  rw [fieldKK, BitVec.extractLsb'_toNat, Nat.shiftRight_zero]

theorem toNat_fieldNNN (w : Word) : (fieldNNN w).toNat = w.toNat % 4096 := by
  rw [fieldNNN, BitVec.extractLsb'_toNat, Nat.shiftRight_zero]

/-- Concatenation as a number: the left part is the high one. -/
theorem toNat_append_eq {m n : Nat} (a : BitVec m) (b : BitVec n) : (a ++ b).toNat = a.toNat * 2 ^ n + b.toNat := by
  rw [BitVec.toNat_append, ← Nat.shiftLeft_add_eq_or_of_lt b.isLt, Nat.shiftLeft_eq]

theorem toNat_wordOfBytes (hi lo : Byte) : (wordOfBytes hi lo).toNat = hi.toNat * 256 + lo.toNat := toNat_append_eq hi lo

theorem fieldKK_eq_append (w : Word) : fieldKK w = fieldY w ++ fieldN w := by
  apply BitVec.eq_of_toNat_eq
  rw [toNat_append_eq, toNat_fieldKK, toNat_fieldY, toNat_fieldN]
  omega

theorem fieldNNN_eq_append (w : Word) : fieldNNN w = fieldX w ++ fieldY w ++ fieldN w := by
  apply BitVec.eq_of_toNat_eq
  rw [toNat_append_eq, toNat_append_eq, toNat_fieldNNN, toNat_fieldX, toNat_fieldY, toNat_fieldN]
  omega

/-- Settles O5: each field as a number, of the word and of the number its two bytes make. -/
theorem fieldsOfWord : Obligations.FieldsOfWord := by
  refine ⟨fun w => ⟨toNat_fieldOp w, toNat_fieldX w, toNat_fieldY w, toNat_fieldN w, toNat_fieldKK w, toNat_fieldNNN w,
    fieldKK_eq_append w, fieldNNN_eq_append w⟩, fun hi lo => ?_⟩
  have hiBound : hi.toNat < 256 := hi.isLt
  have loBound : lo.toNat < 256 := lo.isLt
  simp only [toNat_fieldOp, toNat_fieldX, toNat_fieldY, toNat_fieldN, toNat_fieldNNN, toNat_wordOfBytes]
  exact ⟨by omega, by omega, by omega, by omega, lowByte_wordOfBytes hi lo, by omega⟩

/-! ### What the decoder reads (R95, R97) -/

/-- R97's table on the fields of the word. -/
theorem illegal_iff {w : Word} : Illegal w ↔
    fieldOp w = 0 ∧ w ≠ 0x00E0 ∧ w ≠ 0x00EE ∨
    fieldOp w = 5 ∧ fieldN w ≠ 0 ∨
    fieldOp w = 8 ∧ fieldN w ∈ [8, 9, 0xA, 0xB, 0xC, 0xD, 0xF] ∨
    fieldOp w = 9 ∧ fieldN w ≠ 0 ∨
    fieldOp w = 0xE ∧ fieldKK w ∉ [0x9E, 0xA1] ∨
    fieldOp w = 0xF ∧ fieldKK w ∉ [0x07, 0x0A, 0x15, 0x18, 0x1E, 0x29, 0x33, 0x55, 0x65] := by
  simp only [Illegal, ← toNat_fieldOp, ← toNat_fieldN, ← toNat_fieldKK, ← BitVec.toNat_inj (n := 4),
    ← BitVec.toNat_inj (n := 8), List.mem_cons, List.not_mem_nil, ne_eq]
  rfl

/-- What may be read from a word: a well-formed instruction that is written as this very word, or, from an illegal word,
the rejection that names it. -/
inductive Reading (w : Word) : Except DecodeError Instr → Prop
  | instruction {i : Instr} (wf : i.wellFormed = true) (word : encode i = w) : Reading w (.ok i)
  | rejected (illegal : Illegal w) : Reading w (.error (.unsupportedInstruction w))

theorem decodeFamily0_reading {w : Word} (family : fieldOp w = 0) : Reading w (.ok (decodeFamily0 w)) := by
  unfold decodeFamily0
  split
  · next isCls => exact .instruction rfl isCls.symm
  · next notCls =>
    split
    · next isRet => exact .instruction rfl isRet.symm
    · next notRet => exact .instruction (sys_wellFormed_of_word family notCls notRet) (wordNNN_of_op family)

theorem decodeFamily8_reading {w : Word} (family : fieldOp w = 8) : Reading w (decodeFamily8 w) := by
  unfold decodeFamily8
  split
  case h_10 =>
    have sub : fieldN w ∈ [8, 9, 0xA, 0xB, 0xC, 0xD, 0xF] := by
      have := nibble_cases (fieldN w)
      simp_all
    exact .rejected (illegal_iff.mpr (.inr (.inr (.inl ⟨family, sub⟩))))
  all_goals exact .instruction rfl (wordXYN_of_op_n family ‹_›)

theorem decodeFamilyE_reading {w : Word} (family : fieldOp w = 0xE) : Reading w (decodeFamilyE w) := by
  unfold decodeFamilyE
  split
  case h_3 =>
    have sub : fieldKK w ∉ [0x9E, 0xA1] := by simp_all
    exact .rejected (illegal_iff.mpr (.inr (.inr (.inr (.inr (.inl ⟨family, sub⟩))))))
  all_goals exact .instruction rfl (wordXKK_of_op_kk family ‹_›)

theorem decodeFamilyF_reading {w : Word} (family : fieldOp w = 0xF) : Reading w (decodeFamilyF w) := by
  unfold decodeFamilyF
  split
  case h_10 =>
    have sub : fieldKK w ∉ [0x07, 0x0A, 0x15, 0x18, 0x1E, 0x29, 0x33, 0x55, 0x65] := by simp_all
    exact .rejected (illegal_iff.mpr (.inr (.inr (.inr (.inr (.inr ⟨family, sub⟩))))))
  all_goals exact .instruction rfl (wordXKK_of_op_kk family ‹_›)

/-- What the decoder can answer, said once, family by family. -/
theorem decodeWord_reading (w : Word) : Reading w (decodeWord w) := by
  unfold decodeWord
  split
  · next family => exact decodeFamily0_reading family
  · next family => exact .instruction rfl (wordNNN_of_op family)
  · next family => exact .instruction rfl (wordNNN_of_op family)
  · next family => exact .instruction rfl (wordXKK_of_op family)
  · next family => exact .instruction rfl (wordXKK_of_op family)
  · next family =>
    split
    · next sub => exact .instruction rfl (wordXYN_of_op_n family sub)
    · next sub => exact .rejected (illegal_iff.mpr (.inr (.inl ⟨family, sub⟩)))
  · next family => exact .instruction rfl (wordXKK_of_op family)
  · next family => exact .instruction rfl (wordXKK_of_op family)
  · next family => exact decodeFamily8_reading family
  · next family =>
    split
    · next sub => exact .instruction rfl (wordXYN_of_op_n family sub)
    · next sub => exact .rejected (illegal_iff.mpr (.inr (.inr (.inr (.inl ⟨family, sub⟩)))))
  · next family => exact .instruction rfl (wordNNN_of_op family)
  · next family => exact .instruction rfl (wordNNN_of_op family)
  · next family => exact .instruction rfl (wordXKK_of_op family)
  · next family => exact .instruction rfl (wordXYN_of_op family)
  · next family => exact decodeFamilyE_reading family
  · have family : fieldOp w = 0xF := by
      have := nibble_cases (fieldOp w)
      simp_all
    exact decodeFamilyF_reading family

/-- Settles O2: a decoded word is that of a well-formed instruction. -/
theorem encodeOfDecode : Obligations.EncodeOfDecode := fun w _ h => by
  obtain ⟨wf, word⟩ | - := h ▸ decodeWord_reading w
  exact ⟨wf, word⟩

theorem illegal_of_decodeWord_error {w : Word} {e : DecodeError} (h : decodeWord w = .error e) : Illegal w := by
  obtain - | illegal := h ▸ decodeWord_reading w
  exact illegal

/-- Of the words of instructions those of the legacy form are illegal (R97). -/
theorem illegal_encode_iff {i : Instr} (wf : i.wellFormed = true) : Illegal (encode i) ↔ ∃ nnn, i = .sys nnn := by
  cases i with
  | cls | ret => simp [Illegal, encode]
  | sys nnn => exact ⟨fun _ => ⟨nnn, rfl⟩, fun _ => illegal_iff.mpr (.inl ⟨fieldOp_wordNNN .., sys_wellFormed_iff.mp wf⟩)⟩
  | _ => simp [illegal_iff, encode]

/-! ### The step's checks in their order (R90) -/

theorem step_of_latched {s : State} {f : Fault} (latched : s.fault = some f) : step s = .fault f := by
  simp [step, cycle, latched]

theorem step_of_waiting {s : State} {r : RegIdx} (noFault : s.fault = none) (wait : s.awaiting = .waiting r) :
    step s = .next (s.waitScan r) := by
  simp [step, cycle, noFault, wait]

theorem step_of_fetch_error {s : State} {f : Fault} (ready : Ready s) (fetch : s.fetch = .error f) : step s = s.raise f := by
  simp [step, cycle, ready.noFault, ready.notWaiting, fetch]

theorem step_of_fetch_ok {s : State} {w : Word} (ready : Ready s) (fetch : s.fetch = .ok w) : step s = s.runWord w := by
  simp [step, cycle, ready.noFault, ready.notWaiting, fetch]

theorem runWord_of_decode_ok {s : State} {w : Word} {i : Instr} (decode : decodeWord w = .ok i) :
    s.runWord w = exec i s := by
  simp [State.runWord, decode]

theorem runWord_of_decode_error {s : State} {w : Word} {e : DecodeError} (decode : decodeWord w = .error e) :
    s.runWord w = s.raise (.unsupportedInstruction s.pc w) := by
  simp [State.runWord, decode]

/-- A rejected word and one of the legacy form raise the same fault with the same word (R128). -/
theorem runWord_of_illegal {s : State} {w : Word} (illegal : Illegal w) :
    s.runWord w = s.raise (.unsupportedInstruction s.pc w) := by
  cases decode : decodeWord w with
  | error e => exact runWord_of_decode_error decode
  | ok i =>
    obtain ⟨wf, word⟩ := encodeOfDecode w i decode
    obtain ⟨nnn, rfl⟩ := (illegal_encode_iff wf).mp (word ▸ illegal)
    rw [runWord_of_decode_ok decode, ← word]
    rfl

/-- Settles O6: an illegal word raises whether it is rejected or of the legacy form, and no other word is either. -/
theorem illegalWordsRaise : Obligations.IllegalWordsRaise := by
  refine ⟨fun s w ready fetch illegal => (step_of_fetch_ok ready fetch).trans (runWord_of_illegal illegal),
    fun w legal => ?_⟩
  cases decode : decodeWord w with
  | error e => exact absurd (illegal_of_decodeWord_error decode) legal
  | ok i =>
    obtain ⟨wf, word⟩ := encodeOfDecode w i decode
    exact ⟨i, rfl, fun nnn isSys => legal (word ▸ (illegal_encode_iff wf).mpr ⟨nnn, isSys⟩)⟩

/-- Settles O7, by evaluating the decoder on each word. -/
theorem specWordsDecode : Obligations.SpecWordsDecode := by
  unfold Obligations.SpecWordsDecode
  decide

/-- Settles O8: one lemma for each check, and the report read from the latch. -/
theorem stepContract : Obligations.StepContract := by
  refine ⟨fun s f latched => ?_, fun s r => step_of_waiting, fun s f => step_of_fetch_error,
    fun s w e ready fetch decode => (step_of_fetch_ok ready fetch).trans (runWord_of_decode_error decode),
    fun s t h => ?_⟩
  · exact ⟨step_of_latched latched, by rw [stepEvent, step_of_latched latched]⟩
  · have event : stepEvent s = (t, stepReport t) := by rw [stepEvent, h]
    exact ⟨fun ok => by rw [event, stepReport, ok], fun f latched => by rw [event, stepReport, latched]⟩

/-- Settles O9: the fetch gives the word of the two bytes, and the step runs what it decodes to. -/
theorem stepRunsDecodedInstruction : Obligations.StepRunsDecodedInstruction :=
  fun _ _ ready even inside decode =>
    (step_of_fetch_ok ready (fetch_of_even_inside even inside)).trans (runWord_of_decode_ok decode)

/-! ### The opcode map (R96) -/

/-- Every word the row accepts decodes to an instruction of the row's mnemonic; for row 3 the two exact matches before it
are left out. -/
def RowDecodes (r : OpcodeRow) : Prop :=
  ∀ w, r.accepts w = true → (r.mnemonic = "SYS_nnn" → ¬ (w = 0x00E0 ∨ w = 0x00EE)) →
    ∃ i, decodeWord w = .ok i ∧ i.mnemonic = r.mnemonic

theorem row_of_line {name : String} {mask value : Word} {i : Word → Instr} (line : Encoded mask value i)
    (named : ∀ w, (i w).mnemonic = name := by intros; rfl) : RowDecodes ⟨name, mask, value⟩ := fun w accepts _ =>
  ⟨i w, line w (beq_iff_eq.mp accepts), named w⟩

theorem rowDecodes_of_mem : ∀ r ∈ opcodeMap, RowDecodes r := by
  obtain ⟨cls, ret, sys, jp, call, seImm, sneImm, seReg, ldImm, addImm, ldReg, orReg, andReg, xorReg, addReg, subReg, shr,
    subnReg, shl, sneReg, ldI, jpV0, rnd, drw, skp, sknp, ldVxDT, ldVxK, ldDTVx, ldSTVx, addIVx, ldFVx, ldBVx, storeRegs,
    loadRegs⟩ := encodingLines
  have sysRow : RowDecodes ⟨"SYS_nnn", 0xF000, 0x0000⟩ := fun w accepts other =>
    have ⟨notCls, notRet⟩ := not_or.mp (other rfl)
    ⟨_, sys w (beq_iff_eq.mp accepts) notCls notRet, rfl⟩
  simp only [opcodeMap, opcodeRowsLow, opcodeRowsHigh, List.cons_append, List.nil_append, List.forall_mem_cons]
  exact ⟨row_of_line cls, row_of_line ret, sysRow, row_of_line jp, row_of_line call, row_of_line seImm,
    row_of_line sneImm, row_of_line seReg, row_of_line ldImm, row_of_line addImm, row_of_line ldReg, row_of_line orReg,
    row_of_line andReg, row_of_line xorReg, row_of_line addReg, row_of_line subReg, row_of_line shr, row_of_line subnReg,
    row_of_line shl, row_of_line sneReg, row_of_line ldI, row_of_line jpV0, row_of_line rnd, row_of_line drw,
    row_of_line skp, row_of_line sknp, row_of_line ldVxDT, row_of_line ldVxK, row_of_line ldDTVx, row_of_line ldSTVx,
    row_of_line addIVx, row_of_line ldFVx, row_of_line ldBVx, row_of_line storeRegs, row_of_line loadRegs,
    List.forall_mem_nil _⟩

/-- No two rows share a mnemonic. -/
theorem row_eq_of_mnemonic_eq {r r' : OpcodeRow} (mem : r ∈ opcodeMap) (mem' : r' ∈ opcodeMap)
    (same : r.mnemonic = r'.mnemonic) : r = r' :=
  List.inj_on_of_nodup_map (f := OpcodeRow.mnemonic) (by decide) mem mem' same

/-- Every instruction's word is accepted by the row of its mnemonic. -/
theorem encodingRow (i : Instr) : Laws.EncodingRow.Statement i := by
  open Laws.EncodingRow in
  cases i
  exacts [cls, ret, sys _, jp _, call _, seImm _ _, sneImm _ _, seReg _ _, ldImm _ _, addImm _ _, ldReg _ _, orReg _ _,
    andReg _ _, xorReg _ _, addReg _ _, subReg _ _, shr _ _, subnReg _ _, shl _ _, sneReg _ _, ldI _, jpV0 _, rnd _ _,
    drw _ _ _, skp _, sknp _, ldVxDT _, ldVxK _, ldDTVx _, ldSTVx _, addIVx _, ldFVx _, ldBVx _, storeRegs _, loadRegs _]

theorem exists_row_of_decode {w : Word} {i : Instr} (decode : decodeWord w = .ok i) :
    ∃ r ∈ opcodeMap, r.accepts w = true := by
  obtain ⟨-, word⟩ := encodeOfDecode w i decode
  obtain ⟨r, mem, -, accepts⟩ := encodingRow i
  exact ⟨r, mem, word ▸ accepts⟩

/-- The first row that accepts a word has the mnemonic of the decoded instruction; where no row accepts it, none is
decoded. -/
theorem firstRow_mnemonic (w : Word) : (opcodeMap.find? fun r => r.accepts w).map OpcodeRow.mnemonic
    = (decodeWord w).toOption.map Instr.mnemonic := by
  by_cases fixed : w = 0x00E0 ∨ w = 0x00EE
  · rcases fixed with rfl | rfl <;> rfl
  cases found : opcodeMap.find? fun r => r.accepts w with
  | none =>
    cases decode : decodeWord w with
    | error e => rfl
    | ok i =>
      obtain ⟨r, mem, accepts⟩ := exists_row_of_decode decode
      exact absurd accepts (List.find?_eq_none.mp found r mem)
  | some r =>
    have accepts := List.find?_some found
    obtain ⟨i, decode, name⟩ := rowDecodes_of_mem r (List.mem_of_find?_eq_some found) w accepts fun _ => fixed
    rw [decode, Option.map_some, ← name]
    rfl

/-- Two rows other than row 3 that accept one word are one row: the word decodes to one instruction, whose mnemonic is
that of both. -/
theorem row_unique {r r' : OpcodeRow} (mem : r ∈ opcodeMap) (mem' : r' ∈ opcodeMap) (notSys : r.mnemonic ≠ "SYS_nnn")
    (notSys' : r'.mnemonic ≠ "SYS_nnn") {w : Word} (accepts : r.accepts w = true) (accepts' : r'.accepts w = true) :
    r = r' := by
  obtain ⟨i, decode, name⟩ := rowDecodes_of_mem r mem w accepts (absurd · notSys)
  obtain ⟨i', decode', name'⟩ := rowDecodes_of_mem r' mem' w accepts' (absurd · notSys')
  cases decode.symm.trans decode'
  exact row_eq_of_mnemonic_eq mem mem' (name.symm.trans name')

/-- Settles O3: the first row names the decoded instruction, and the decoder's one answer keeps the rows apart. -/
theorem decoderFollowsOpcodeMap : Obligations.DecoderFollowsOpcodeMap :=
  ⟨firstRow_mnemonic, fun _ mem _ mem' other notSys notSys' _ ⟨accepts, accepts'⟩ =>
    other (row_unique mem mem' notSys notSys' accepts accepts')⟩

end Sys2Proof.Proofs
end

section
/-! SUPPORT. Proofs of the statements about control transfer (`40_flow.md`): jumps and skips write `pc` alone; call and
return are read off their two cases, and their round trip is the one after the other. -/

namespace Sys2Proof.Proofs

open Sys2Proof.Machine Sys2Proof.Claims

/-! ### Jumps, skips and the legacy form -/

/-- Settles O16: the operand, zero-extended, is the target. -/
theorem jumpSetsPc : Obligations.JumpSetsPc := fun nnn s =>
  ⟨s.jump (addrOperand nnn), rfl, toNat_addrOperand nnn, ((Frame.refl _ s).jump _).unchanged⟩

/-- Settles O18: a 12-bit address and a byte sum below 2^16. -/
theorem jumpWithOffsetAddsV0 : Obligations.JumpWithOffsetAddsV0 := fun nnn s =>
  ⟨s.jump (addrOperand nnn + zext16 (s.readV 0)), rfl, toNat_addrOperand_add_zext16 nnn _,
    ((Frame.refl _ s).jump _).unchanged⟩

/-- A skip writes `pc` alone: `pc + 4` where `taken` holds, `pc + 2` where it does not (R25). -/
theorem skipIf_changes_pc (s : State) {taken : Bool} {skips stays : Prop} (yes : skips → taken = true)
    (no : stays → taken = false) :
    OnlyChanges [.pc] s (s.skipIf taken) ∧ (skips → (s.skipIf taken).pc = s.pc + 4) ∧
      (stays → (s.skipIf taken).pc = s.pc + 2) := by
  refine ⟨((Frame.refl _ s).skipIf taken).unchanged, fun h => ?_, fun h => ?_⟩
  · rw [State.skipIf_pc, yes h, if_pos rfl]
  · rw [State.skipIf_pc, no h, if_neg Bool.false_ne_true]

/-- Settles O19: each of the four is a skip on an equality test of two bytes. -/
theorem skipsCompare : Obligations.SkipsCompare := fun s _ _ _ =>
  ⟨⟨_, rfl, skipIf_changes_pc s beq_iff_eq.mpr beq_false_of_ne⟩,
    ⟨_, rfl, skipIf_changes_pc s bne_iff_ne.mpr bne_eq_false_iff_eq.mpr⟩,
    ⟨_, rfl, skipIf_changes_pc s beq_iff_eq.mpr beq_false_of_ne⟩,
    ⟨_, rfl, skipIf_changes_pc s bne_iff_ne.mpr bne_eq_false_iff_eq.mpr⟩⟩

/-- Settles O20: raising is all the legacy form does. -/
theorem legacyCallRaises : Obligations.LegacyCallRaises := fun _ s => s.raise_eq _

/-! ### Call and return (R120, R122) -/

/-- A return drops an entry by its depth alone: the stack array is not written. -/
theorem Frame.setSp {parts : List Part} {s t : State} (h : Frame parts s t) (n : Fin (Config.stackCapacity + 1))
    (named : .sp ∈ parts := by simp) : Frame parts s { t with sp := n } := h.andThen named

/-- Settles O15: a return's two cases, of which each guard leaves one. -/
theorem returnPops : Obligations.ReturnPops := by
  refine ⟨fun s empty => ?_, fun s target live top => ?_⟩
  · rcases execRet_cases s with ⟨_, _, live, -⟩ | ⟨-, e⟩
    · omega
    · exact e
  · rcases execRet_cases s with ⟨v, n, -, top', sp, e⟩ | ⟨empty, -⟩
    · cases top.symm.trans top'
      exact ⟨_, e, rfl, sp, (((Frame.refl _ s).setSp n).jump _).unchanged⟩
    · omega

/-- Settles O17: a call's two cases; the one entry it writes is the one at the old depth. -/
theorem callPushes : Obligations.CallPushes := by
  refine ⟨fun nnn s full => ?_, fun nnn s room => ?_⟩
  · rcases execCall_cases nnn s with ⟨room, -⟩ | ⟨-, e⟩
    · omega
    · exact e
  · rcases execCall_cases nnn s with ⟨_, n, sp, e⟩ | ⟨full, -⟩
    · exact ⟨_, e, toNat_addrOperand nnn, sp, Vector.getElem?_set_self room,
        fun j other => Vector.getElem?_set_ne room other.symm, (((Frame.refl _ s).setStack _ n).jump _).unchanged⟩
    · omega

/-- Settles O21: the entry the call pushed is the top one at the return. -/
theorem callThenReturn : Obligations.CallThenReturn := by
  intro nnn s room
  obtain ⟨t, call, -, depth, pushed, -, -⟩ := callPushes.2 nnn s room
  refine ⟨t, call, fun u sp stack => ?_⟩
  rw [← sp] at depth
  have below : u.sp.val - 1 = s.sp.val := by omega
  have top : u.stack[u.sp.val - 1]? = some (s.pc + 2) := by rw [stack, below, pushed]
  obtain ⟨v, ret, pc, popped, frame⟩ := returnPops.2 u (s.pc + 2) (by omega) top
  exact ⟨v, ret, pc, Fin.ext (popped.trans below), frame⟩

end Sys2Proof.Proofs
end

section
/-! SUPPORT. Proofs of the statements about the register instructions (`41_alu.md`). What the machine does in all of them is
said twice, once for a register write and once for a result with a flag; what each instruction computes is a fact about bytes. -/

namespace Sys2Proof.Proofs

open Sys2Proof.Machine Sys2Proof.Claims

/-! ### One register written, without flag (R140 to R145) -/

theorem otherRegs_writeV (s : State) (x : RegIdx) (b : Byte) : OtherRegs (· = x) s (s.writeV x b) := fun _ other =>
  s.readV_writeV_other b other

/-- An instruction that writes `b` to `V[x]` and goes on to the next word does nothing else. -/
theorem writeV_advance_effect (s : State) (x : RegIdx) (b : Byte) :
    let t := (s.writeV x b).advance
    t.pc = s.pc + 2 ∧ OtherRegs (· = x) s t ∧ OnlyChanges [.pc, .V] s t :=
  ⟨rfl, otherRegs_writeV s x b, ((Frame.refl _ s).writeV x b).advance.unchanged⟩

/-- Settles O22: `V[x]` is written once, and the sum of two bytes wraps at 256. -/
theorem immediateForms : Obligations.ImmediateForms := fun s x kk =>
  ⟨⟨_, rfl, s.readV_writeV_same x kk, writeV_advance_effect s x kk⟩,
    ⟨_, rfl, (congrArg BitVec.toNat (s.readV_writeV_same x _)).trans (BitVec.toNat_add ..), writeV_advance_effect s x _⟩⟩

/-- The register just written, read bit by bit. -/
theorem getLsbD_readV_writeV_advance (s : State) (x : RegIdx) (b : Byte) (i : Nat) :
    ((s.writeV x b).advance.readV x).getLsbD i = b.getLsbD i :=
  congrArg (·.getLsbD i) (s.readV_writeV_same x b)

/-- Settles O23: `V[x]` is written once, with a value computed from the state before. -/
theorem moveAndLogic : Obligations.MoveAndLogic := fun s x _ =>
  ⟨⟨_, rfl, s.readV_writeV_same x _, writeV_advance_effect s x _⟩,
    ⟨_, rfl, fun i => (getLsbD_readV_writeV_advance s x _ i).trans BitVec.getLsbD_or, writeV_advance_effect s x _⟩,
    ⟨_, rfl, fun i => (getLsbD_readV_writeV_advance s x _ i).trans BitVec.getLsbD_and, writeV_advance_effect s x _⟩,
    ⟨_, rfl, fun i => (getLsbD_readV_writeV_advance s x _ i).trans BitVec.getLsbD_xor, writeV_advance_effect s x _⟩⟩

/-! ### A result, and the flag last (R147 to R152) -/

/-- An instruction that writes a result to `V[x]`, then a flag to `VF`, and goes on to the next word: the result stands
unless the flag replaces it (D10), the flag stands always, and nothing else is changed. -/
theorem writeResultThenFlag_advance_effect (s : State) (x : RegIdx) {result : Byte} {flag : Bool} {n f : Nat}
    (value : result.toNat = n) (bit : (flagByte flag).toNat = f) :
    let t := (s.writeResultThenFlag x result flag).advance
    (x ≠ 15 → (t.readV x).toNat = n) ∧ (t.readV 15).toNat = f ∧ t.pc = s.pc + 2 ∧
      OtherRegs (fun r => r = x ∨ r = 15) s t ∧ OnlyChanges [.pc, .V] s t := by
  intro t
  have read (r : RegIdx) : t.readV r = if r = 15 then flagByte flag else if r = x then result else s.readV r :=
    s.readV_writeResultThenFlag x r result flag
  refine ⟨fun notVF => ?_, ?_, rfl, fun r other => ?_, ((Frame.refl _ s).writeResultThenFlag x _ _).advance.unchanged⟩
  · rw [read, if_neg notVF, if_pos rfl, value]
  · rw [read, if_pos rfl, bit]
  · obtain ⟨notX, notVF⟩ := not_or.mp other
    rw [read, if_neg notVF, if_neg notX]

theorem toNat_flagByte (b : Bool) : (flagByte b).toNat = b.toNat := by cases b <;> rfl

theorem toNat_flagByte_decide (p : Prop) [Decidable p] : (flagByte (decide p)).toNat = if p then 1 else 0 :=
  (toNat_flagByte _).trans (Bool.cond_decide p 1 0)

/-- The flag of a bit is that binary digit. -/
theorem toNat_flagByte_getLsbD (a : Byte) (i : Nat) : (flagByte (a.getLsbD i)).toNat = a.toNat / 2 ^ i % 2 :=
  (toNat_flagByte _).trans (Nat.toNat_testBit a.toNat i)

/-- A difference of bytes, with the 256 borrowed on the left. -/
theorem toNat_sub_byte (a b : Byte) : (a - b).toNat = (a.toNat + 256 - b.toNat) % 256 := by
  have := b.isLt
  rw [BitVec.toNat_sub]
  omega

theorem toNat_shiftRight_one (a : Byte) : (a >>> 1).toNat = a.toNat / 2 := by
  rw [BitVec.toNat_ushiftRight, Nat.shiftRight_eq_div_pow, pow_one]

theorem toNat_shiftLeft_one (a : Byte) : (a <<< 1).toNat = a.toNat * 2 % 256 := by
  rw [BitVec.toNat_shiftLeft, Nat.shiftLeft_eq, pow_one]

theorem toNat_shiftRightFlag (a : Byte) : (flagByte (shiftRightFlag a)).toNat = a.toNat % 2 := by
  have bit := toNat_flagByte_getLsbD a 0
  rwa [pow_zero, Nat.div_one] at bit

theorem toNat_shiftLeftFlag (a : Byte) : (flagByte (shiftLeftFlag a)).toNat = a.toNat / 128 := by
  have small : a.toNat / 2 ^ 7 < 2 := by have := a.isLt; omega
  exact (toNat_flagByte_getLsbD a 7).trans (Nat.mod_eq_of_lt small)

/-- Settles O24: the result and the flag of a sum and of the two differences. -/
theorem arithmeticWithFlag : Obligations.ArithmeticWithFlag := fun s x _ =>
  ⟨⟨_, rfl, writeResultThenFlag_advance_effect s x (BitVec.toNat_add ..) (toNat_flagByte_decide _)⟩,
    ⟨_, rfl, writeResultThenFlag_advance_effect s x (toNat_sub_byte ..) (toNat_flagByte_decide _)⟩,
    ⟨_, rfl, writeResultThenFlag_advance_effect s x (toNat_sub_byte ..) (toNat_flagByte_decide _)⟩⟩

/-- Settles O25: half or double, and the binary digit that is lost. -/
theorem shiftsByOne : Obligations.ShiftsByOne := fun s x _ =>
  ⟨⟨_, rfl, writeResultThenFlag_advance_effect s x (toNat_shiftRight_one _) (toNat_shiftRightFlag _)⟩,
    ⟨_, rfl, writeResultThenFlag_advance_effect s x (toNat_shiftLeft_one _) (toNat_shiftLeftFlag _)⟩⟩

/-! ### Random (R158) -/

/-- A masked byte has no bit outside the mask. -/
theorem and_mask_and_not_mask (r kk : Byte) : r &&& kk &&& ~~~kk = 0 := by
  rw [BitVec.and_assoc, BitVec.and_not_self]
  exact BitVec.and_zero

/-- Settles O26: after the draw, which changes `draws` alone, one masked byte is written. -/
theorem randomIsMasked : Obligations.RandomIsMasked := by
  intro s x kk
  have written := s.randomByte.2.readV_writeV_same x (Config.randomByte s.draws &&& kk)
  exact ⟨_, rfl, written, (congrArg (· &&& ~~~kk) written).trans (and_mask_and_not_mask _ kk), rfl, rfl,
    otherRegs_writeV s.randomByte.2 x _, ((Frame.refl _ s).randomByte.writeV x _).advance.unchanged⟩

end Sys2Proof.Proofs
end

section
/-! SUPPORT. Proofs of the statements about the index register and memory (`42_index_memory.md`): what a run of stored bytes
leaves to be read, and where `I` ends after a register loop, which inside memory never wraps. -/

namespace Sys2Proof.Proofs

open Sys2Proof.Machine Sys2Proof.Claims

/-! ### The index register (R170 to R172) -/

/-- An instruction that writes `I` and goes on to the next word does nothing else. -/
theorem writeI_advance_effect (s : State) {a : Word} {n : Nat} (value : a.toNat = n) :
    let t := (s.writeI a).advance
    t.I.toNat = n ∧ t.pc = s.pc + 2 ∧ OnlyChanges [.pc, .I] s t :=
  ⟨value, rfl, ((Frame.refl _ s).writeI a).advance.unchanged⟩

/-- A byte added to a word: modulo 2^16 (D12). -/
theorem toNat_add_zext16 (a : Word) (b : Byte) : (a + zext16 b).toNat = (a.toNat + b.toNat) % 65536 := by
  simp only [zext16, BitVec.toNat_add, BitVec.toNat_setWidth]
  omega

/-- The glyph of a value's low nibble: five bytes a glyph from address 0 (D3). -/
theorem toNat_fontAddress (v : Byte) : (fontAddress v).toNat = 5 * (v.toNat % 16) := by
  simp only [fontAddress, Config.fontBase, Config.glyphBytes, BitVec.toNat_ofNat, BitVec.extractLsb'_toNat,
    Nat.shiftRight_zero]
  omega

/-- Settles O28: each writes `I` once. -/
theorem indexInstructions : Obligations.IndexInstructions := fun s _ nnn =>
  ⟨⟨_, rfl, writeI_advance_effect s (toNat_addrOperand nnn)⟩,
    ⟨_, rfl, writeI_advance_effect s (toNat_add_zext16 s.I _)⟩,
    ⟨_, rfl, writeI_advance_effect s (toNat_fontAddress _)⟩⟩

/-! ### A run of bytes stored (R173) -/

section StoredRun

variable {m : Memory} {a : Nat} {run : List Byte} (wf : m.wf = true) (fits : a + run.length ≤ Config.memSize)
include wf fits

/-- A stored run is read back byte by byte. -/
theorem read_writeBytes_stored {k : Nat} (h : k < run.length) : (m.writeBytes a run).read (a + k) = run[k] := by
  rw [Memory.read_writeBytes wf fits, if_pos (Nat.le_add_right a k), Nat.add_sub_cancel_left,
    List.getD_eq_getElem _ _ h]

/-- Outside a stored run every byte reads as before. -/
theorem read_writeBytes_outside {c : Nat} (h : c < a ∨ a + run.length ≤ c) :
    (m.writeBytes a run).read c = m.read c := by
  rw [Memory.read_writeBytes wf fits]
  split
  · exact List.getD_eq_default _ _ (by omega)
  · rfl

end StoredRun

/-- A number no larger than a byte's is a byte itself. -/
theorem toNat_ofNat_of_le_byte {v : Byte} {n : Nat} (h : n ≤ v.toNat) : (BitVec.ofNat 8 n).toNat = n := by
  rw [BitVec.toNat_ofNat]
  exact Nat.mod_eq_of_lt (Nat.lt_of_le_of_lt h v.isLt)

/-- Settles O29: the three digits are a run of bytes stored from `I` upward. -/
theorem storeBcd : Obligations.StoreBcd := by
  refine ⟨fun s x out => State.withRange_out (by decide) (by omega) (.ldBVx x) _, fun s x wf inside => ?_⟩
  have fits : s.I.toNat + (bcdDigits (s.readV x)).length ≤ Config.memSize := inside
  have digit {k n : Nat} (h : k < 3) (value : (bcdDigits (s.readV x))[k] = BitVec.ofNat 8 n)
      (small : n ≤ (s.readV x).toNat) :
      ((s.mem.writeBytes s.I.toNat (bcdDigits (s.readV x))).read (s.I.toNat + k)).toNat = n := by
    rw [read_writeBytes_stored wf fits h, value, toNat_ofNat_of_le_byte small]
  exact ⟨_, State.withRange_ok (.inr inside) (.ldBVx x) _, digit (k := 0) (by decide) rfl (by omega),
    digit (by decide) rfl (by omega), digit (by decide) rfl (by omega), fun _ => read_writeBytes_outside wf fits, rfl,
    ((Frame.refl _ s).storeAtI _).advance.unchanged⟩

/-! ### The register loops (R174, R175) -/

/-- A frame may name more parts than were changed. -/
theorem Frame.mono {parts parts' : List Part} {s t : State} (h : Frame parts s t) (sub : parts ⊆ parts') :
    Frame parts' s t :=
  ⟨fun p hp => h.unchanged p fun m => hp (sub m), fun hp => h.mem_eq fun m => hp (sub m)⟩

/-- After a register loop, which leaves `I` and `pc` alone, `I` goes past the bytes of `V[0]` to `V[x]`, which inside memory
does not wrap, and `pc` to the next word. -/
theorem advanceI_advance_effect {parts : List Part} {s t : State} {x : RegIdx} (loop : Frame parts s t)
    (inside : s.I.toNat + x.toNat < Config.memSize) (keepsI : .I ∉ parts := by simp) (keepsPc : .pc ∉ parts := by simp) :
    let u := (t.advanceI x).advance
    u.I.toNat = s.I.toNat + x.toNat + 1 ∧ u.pc = s.pc + 2 ∧ OnlyChanges (.pc :: .I :: parts) s u := by
  have I : t.I = s.I := loop.unchanged .I keepsI
  have pc : t.pc = s.pc := loop.unchanged .pc keepsPc
  have named : parts ⊆ .pc :: .I :: parts := fun _ m => .tail _ (.tail _ m)
  refine ⟨?_, congrArg (· + 2) pc, (((loop.mono named).writeI _).advance).unchanged⟩
  rw [memSize_eq] at inside
  simp only [State.advance_I, State.advanceI_I, I, regCount, BitVec.toNat_add, BitVec.toNat_ofNat]
  omega

/-- Settles O30: the registers' values are a run of bytes stored from `I` upward, byte `r` of it `V[r]`. -/
theorem storeRegisters : Obligations.StoreRegisters := by
  refine ⟨fun s x out => State.withRange_out (Nat.succ_ne_zero _) (Nat.lt_succ_of_le out) (.storeRegs x) _,
    fun s x wf inside => ?_⟩
  have length : ((regRange x).map s.readV).length = x.toNat + 1 := by rw [List.length_map, length_regRange, regCount]
  have fits : s.I.toNat + ((regRange x).map s.readV).length ≤ Config.memSize := by omega
  refine ⟨_, State.withRange_ok (.inr inside) (.storeRegs x) _, fun r named => ?stored, fun c outside => ?outside,
    advanceI_advance_effect ((Frame.refl [.mem] s).storeAtI _) inside⟩
  case stored =>
    have stored := read_writeBytes_stored wf fits (k := r.toNat) (by omega)
    rwa [getElem_map_readV_regRange, BitVec.ofNat_toNat, BitVec.setWidth_eq] at stored
  case outside => exact read_writeBytes_outside wf fits (by omega)

/-- Settles O31: the load loop reads memory as it was at the start of the step. -/
theorem loadRegisters : Obligations.LoadRegisters := by
  refine ⟨fun s x out => State.withRange_out (Nat.succ_ne_zero _) (Nat.lt_succ_of_le out) (.loadRegs x) _,
    fun s x inside => ?_⟩
  exact ⟨_, State.withRange_ok (.inr inside) (.loadRegs x) _, fun r named => (s.readV_loadFromI x r).trans (if_pos named),
    fun r other => (s.readV_loadFromI x r).trans (if_neg other),
    advanceI_advance_effect ((Frame.refl [.V] s).loadFromI x) inside⟩

end Sys2Proof.Proofs
end

section
/-! SUPPORT. Proofs of the statements about the display (`43_display.md`): the pixels that a draw's loops run over are the
cells its sprite covers, so what drawing pixels does to a grid is what the draw does to the screen. -/

namespace Sys2Proof.Proofs

open Sys2Proof.Machine Sys2Proof.Claims

/-- Settles O33: the one grid written is the blank one, whatever was on before. -/
theorem clearScreen : Obligations.ClearScreen := fun s =>
  ⟨_, rfl, Grid.cell_blank, rfl, rfl, ((Frame.refl _ s).setDisp _).advance.unchanged⟩

/-! ### The sprite on the grid (R191) -/

/-- Byte `i` of a run read from memory. -/
theorem getElem?_readBytes_eq_some_iff {m : Memory} {a n i : Nat} {b : Byte} :
    (m.readBytes a n)[i]? = some b ↔ i < n ∧ m.read (a + i) = b := by
  simp [List.getElem?_eq_some_iff, Memory.getElem_readBytes]

/-- The pixels of the sprite that `Dxyn` draws, in the order of its loops. -/
def pixelsOf (s : State) (x y : RegIdx) (n : Nibble) : Pixels :=
  spritePixels (s.readV y).toNat (s.readV x).toNat (s.mem.readBytes s.I.toNat n.toNat)

/-- The 1 pixels fall on exactly the covered cells. -/
theorem hits_pixelsOf_iff {s : State} {x y : RegIdx} {n : Nibble} {r : Fin 32} {c : Fin 64} :
    (pixelsOf s x y n).hits r c ↔ Covers s x y n r c := by
  constructor
  · rintro ⟨_, drawn, on, row, col⟩
    obtain ⟨i, j, b, at_i, hj, rfl⟩ := mem_spritePixels.mp drawn
    obtain ⟨hi, rfl⟩ := getElem?_readBytes_eq_some_iff.mp at_i
    exact ⟨i, j, hi, hj, congrArg Fin.val row, congrArg Fin.val col, on⟩
  · rintro ⟨i, j, hi, hj, row, col, on⟩
    refine ⟨_, mem_spritePixels.mpr ⟨i, j, _, ?at_i, hj, rfl⟩, on, Fin.ext row, Fin.ext col⟩
    exact getElem?_readBytes_eq_some_iff.mpr ⟨hi, rfl⟩

/-- A sprite has at most 15 rows, fewer than the grid, so it never meets a cell twice. -/
theorem pixelsOf_apart (s : State) (x y : RegIdx) (n : Nibble) : (pixelsOf s x y n).apart := by
  refine spritePixels_apart _ _ _ ?_
  have rows : n.toNat < 16 := n.isLt
  have height : Config.displayHeight = 32 := rfl
  rw [Memory.length_readBytes]
  omega

/-! ### The draw (R192) -/

/-- The screen after the sprite of `Dxyn` is drawn on it, with the collision. -/
def canvasOf (s : State) (x y : RegIdx) (n : Nibble) : Canvas :=
  Canvas.drawPixels ⟨s.disp, false⟩ (pixelsOf s x y n)

/-- The covered cells toggle, the others stay, and a collision is a covered cell that was on. -/
theorem canvasOf_spec (s : State) (x y : RegIdx) (n : Nibble) :
    (∀ r c, Covers s x y n r c → Grid.cell (canvasOf s x y n).grid r c = !(Grid.cell s.disp r c)) ∧
    (∀ r c, ¬ Covers s x y n r c → Grid.cell (canvasOf s x y n).grid r c = Grid.cell s.disp r c) ∧
    ((canvasOf s x y n).collision = true ↔ ∃ r c, Covers s x y n r c ∧ Grid.cell s.disp r c = true) := by
  obtain ⟨toggles, keeps, collides⟩ := Canvas.drawPixels_spec _ ⟨s.disp, false⟩ (pixelsOf_apart s x y n)
  simp only [hits_pixelsOf_iff, Bool.false_eq_true, false_or] at toggles keeps collides
  exact ⟨toggles, keeps, collides⟩

/-- `Dxyn` checks the sprite's range, then writes the screen, `VF` and `pc`. -/
theorem exec_drw (s : State) (x y : RegIdx) (n : Nibble) :
    exec (.drw x y n) s = s.withRange (.drw x y n) n.toNat
      ({ s with disp := (canvasOf s x y n).grid, dirty := true }.writeVF
        (flagByte (canvasOf s x y n).collision)).advance := by
  rw [canvasOf, pixelsOf, ← Canvas.drawRows_eq]
  rfl

/-- Settles O34: out of range the latch alone changes; in range the canvas is the next screen and its collision the flag. -/
theorem drawSprite : Obligations.DrawSprite := by
  refine ⟨fun s x y n some_row out => ?_, fun s x y n inside => ?_⟩
  · exact (exec_drw s x y n).trans (State.withRange_out (by omega) (by omega) _ _)
  obtain ⟨toggles, keeps, collides⟩ := canvasOf_spec s x y n
  have fits : n.toNat = 0 ∨ s.I.toNat + n.toNat ≤ Config.memSize := by omega
  have drawn := (exec_drw s x y n).trans (State.withRange_ok fits _ _)
  refine ⟨_, drawn, toggles, keeps, fun met => ?hit, fun unmet => ?miss, rfl, rfl, otherRegs_writeV _ 15 _,
    (((Frame.refl _ s).setDisp _).writeV 15 _).advance.unchanged⟩
  case hit => exact (VF_writeVF ..).trans (congrArg flagByte (collides.mpr met))
  case miss =>
    have noCollision : (canvasOf s x y n).collision = false := by
      rw [← Bool.not_eq_true, collides]
      rintro ⟨r, c, covered, on⟩
      exact Bool.false_ne_true ((unmet r c covered).symm.trans on)
    exact (VF_writeVF ..).trans (congrArg flagByte noCollision)

/-! ### Drawing twice (R192) -/

/-- The sprite depends on its two coordinates, `I` and memory alone. -/
theorem covers_congr {s t : State} {x y : RegIdx} (col : t.readV x = s.readV x) (row : t.readV y = s.readV y)
    (I : t.I = s.I) (mem : ∀ a, t.mem.read a = s.mem.read a) (n : Nibble) (r : Fin 32) (c : Fin 64) :
    Covers t x y n r c ↔ Covers s x y n r c := by
  simp only [Covers, col, row, I, mem]

/-- A draw that leaves no fault had its sprite inside memory (R67). -/
theorem drw_inside_of_no_fault {s t : State} {x y : RegIdx} {n : Nibble} (h : exec (.drw x y n) s = .next t)
    (done : t.fault = none) : n.toNat = 0 ∨ s.I.toNat + n.toNat - 1 < Config.memSize := by
  by_contra out
  cases (drawSprite.1 s x y n (by omega) (by omega)).symm.trans h
  cases done

/-- Settles O35: the second draw covers the same cells, all of them off before the first draw and on before the second. -/
theorem drawTwiceErases : Obligations.DrawTwiceErases := by
  intro s t u x y n hx hy _ clear first done second
  have inside := drw_inside_of_no_fault first done
  obtain ⟨t', e, toggles, keeps, -, miss, -, -, regs, frame⟩ := drawSprite.2 s x y n inside
  cases e.symm.trans first
  have I : t.I = s.I := frame .I (by simp)
  have same := covers_congr (regs x hx) (regs y hy) I (frame .mem (by simp)) n
  obtain ⟨u', e, toggles', keeps', hit', miss', -⟩ := drawSprite.2 t x y n (I ▸ inside)
  cases e.symm.trans second
  simp only [same] at toggles' keeps' hit' miss'
  have lit (r c) (covered : Covers s x y n r c) : Grid.cell t.disp r c = true := by
    rw [toggles r c covered, clear]
    rfl
  refine ⟨Grid.ext_cell fun r c => ?restored, miss fun r c _ => clear r c, fun one => ?flag,
    fun ⟨r, c, covered⟩ => hit' ⟨r, c, covered, lit r c covered⟩⟩
  case restored =>
    by_cases covered : Covers s x y n r c
    · rw [toggles' r c covered, toggles r c covered, Bool.not_not]
    · rw [keeps' r c covered, keeps r c covered]
  case flag =>
    by_contra none_covered
    have zero : u.VF = 0 := miss' fun r c covered => absurd ⟨r, c, covered⟩ none_covered
    exact absurd (one.symm.trans zero) (by decide)

end Sys2Proof.Proofs
end

section
/-! SUPPORT. Proofs of the statements about the keypad and the timers (`44_input_timers.md`): the key skips are read off the
key that a value names, the waiting step off the key that the scan finds, and a wait without a key is a step that goes
nowhere. -/

namespace Sys2Proof.Proofs

open Sys2Proof.Machine Sys2Proof.Claims

/-! ### The wait for a key (R203, R204) -/

/-- A key that is down with no lower one down is the one the scan finds: the key found is down too, so neither is below the
other. -/
theorem firstKey_of_least {s : State} {k : KeyIdx} (down : s.readKey k = true)
    (least : ∀ j : KeyIdx, j.toNat < k.toNat → s.readKey j = false) : s.firstKey = some k := by
  cases found : s.firstKey with
  | none => exact absurd down (Bool.eq_false_iff.mp (State.firstKey_eq_none_iff.mp found k))
  | some f =>
    obtain ⟨foundDown, foundLeast⟩ := State.firstKey_eq_some found
    have notBelow : ¬ f.toNat < k.toNat := fun below => absurd foundDown (Bool.eq_false_iff.mp (least f below))
    have notAbove : ¬ k.toNat < f.toNat := fun above => absurd down (Bool.eq_false_iff.mp (foundLeast k above))
    exact congrArg some (BitVec.eq_of_toNat_eq (by omega))

theorem waitScan_of_no_key {s : State} (up : ∀ k, s.readKey k = false) (r : RegIdx) : s.waitScan r = s := by
  rcases s.waitScan_cases r with ⟨-, e⟩ | ⟨k, found, -⟩
  · exact e
  · exact absurd (State.firstKey_eq_some found).1 (Bool.eq_false_iff.mp (up k))

theorem waitScan_of_firstKey {s : State} {k : KeyIdx} (found : s.firstKey = some k) (r : RegIdx) :
    s.waitScan r = { (s.writeV r (k.setWidth 8)).advance with awaiting := .notWaiting } := by
  rcases s.waitScan_cases r with ⟨none, -⟩ | ⟨f, found', e⟩
  · cases none.symm.trans found
  · cases found'.symm.trans found
    exact e

/-- With every key up the step of a waiting machine goes nowhere. -/
theorem step_of_waiting_no_key {s : State} {r : RegIdx} (noFault : s.fault = none) (wait : s.awaiting = .waiting r)
    (up : ∀ k, s.readKey k = false) : step s = .next s := by
  rw [step_of_waiting noFault wait, waitScan_of_no_key up]

/-- Settles O38: the step is the scan, which finds no key or the least one. -/
theorem waitingStep : Obligations.WaitingStep := by
  refine fun s r noFault wait => ⟨step_of_waiting_no_key noFault wait, fun k down least => ?_⟩
  have scan := waitScan_of_firstKey (firstKey_of_least down least) r
  exact ⟨_, (step_of_waiting noFault wait).trans (congrArg _ scan),
    (congrArg BitVec.toNat (s.readV_writeV_same r _)).trans (BitVec.toNat_setWidth_of_le (by decide)), rfl, rfl,
    otherRegs_writeV s r _, (((Frame.refl _ s).writeV r _).advance.setAwaiting _).unchanged⟩

/-- An unfaulted state whose step goes nowhere is its own safe run, of any length. -/
theorem safeRun_of_step_self {s : State} (noFault : s.fault = none) (still : step s = .next s) (k : Nat) :
    SafeRun k s s := by
  induction k with
  | zero => exact ⟨rfl, noFault⟩
  | succ k ih => exact ⟨noFault, s, still, ih⟩

/-- Settles O39: with every key up the waiting step goes nowhere. -/
theorem waitHolds : Obligations.WaitHolds := fun k _ _ noFault wait up =>
  safeRun_of_step_self noFault (step_of_waiting_no_key noFault wait up) k

/-- Settles O37: `awaiting` is the one field written. -/
theorem waitEntry : Obligations.WaitEntry := fun s _ =>
  ⟨_, rfl, rfl, rfl, ((Frame.refl _ s).setAwaiting _).unchanged⟩

/-! ### The key skips (R200, R201) -/

section KeySkip

variable {s : State} {x : RegIdx}

/-- A value above 15 names no key (D17). -/
theorem skipIfKey_of_above (above : (s.readV x).toNat > 15) (i : Instr) (wanted : Bool) :
    s.skipIfKey i x wanted = s.raise (.keyIndexFault (s.readV x) s.pc (encode i)) := by
  have unnamed : keyOfValue (s.readV x) = none := if_neg (Nat.not_lt_of_le above)
  rw [State.skipIfKey, unnamed]

/-- A value of a key's number tests that key's latch, and `pc` alone is written. -/
theorem skipIfKey_of_key {k : KeyIdx} (value : (s.readV x).toNat = k.toNat) (i : Instr) (wanted : Bool) :
    ∃ t, s.skipIfKey i x wanted = .next t ∧ t.pc = (if s.readKey k = wanted then s.pc + 4 else s.pc + 2) ∧
      OnlyChanges [.pc] s t := by
  have named : keyOfValue (s.readV x) = some k := keyOfValue_eq_some_iff.mpr value.symm
  refine ⟨s.skipIf (s.readKey k == wanted), ?_, ?_, ((Frame.refl _ s).skipIf _).unchanged⟩
  · rw [State.skipIfKey, named]
  · simp only [State.skipIf_pc, beq_iff_eq]

end KeySkip

/-- Settles O36: both skips are one test, with the wanted latch value true and false. -/
theorem keySkips : Obligations.KeySkips :=
  ⟨fun _ x above => ⟨skipIfKey_of_above above (.skp x) true, skipIfKey_of_above above (.sknp x) false⟩,
    fun _ x _ value => ⟨skipIfKey_of_key value (.skp x) true, skipIfKey_of_key value (.sknp x) false⟩⟩

/-! ### The timers (R205 to R207) -/

/-- Settles O40: one register write, and one write of the timer. -/
theorem delayTimerCopies : Obligations.DelayTimerCopies := fun s x =>
  ⟨⟨_, rfl, s.readV_writeV_same x _, writeV_advance_effect s x _⟩,
    ⟨_, rfl, rfl, rfl, ((Frame.refl _ s).setDT _).advance.unchanged⟩⟩

/-- The tone is on while the sound timer is not 0 (R237). -/
theorem tone_eq (s : State) : tone s = decide (s.ST ≠ 0) :=
  decide_eq_decide.mpr (Nat.pos_iff_ne_zero.trans (BitVec.toNat_inj (y := 0#8)).not)

/-- Settles O41: one write of the timer, on which alone the tone depends. -/
theorem soundTimerCopy : Obligations.SoundTimerCopy := fun s _ =>
  ⟨_, rfl, rfl, tone_eq _, rfl, ((Frame.refl _ s).setST _).advance.unchanged⟩

end Sys2Proof.Proofs
end

section
/-! SUPPORT. Proofs of the statements about faults, events and sessions (`60_exceptions.md`): which instruction raises which
fault, that no instruction but the polling ones sees an input, and what the events and their interleavings keep. -/

namespace Sys2Proof.Proofs

open Sys2Proof.Machine Sys2Proof.Claims

/-! ### Every step goes on (R90) -/

theorem exec_total (i : Instr) (s : State) : ∃ t, exec i s = .next t := by
  have answer := exec_answer i s
  generalize exec i s = r at answer ⊢
  cases answer with
  | raises f => exact ⟨_, rfl⟩
  | completes c => exact ⟨_, rfl⟩

/-- Settles O14: of the cases of a step only the one with a latched fault answers no next state. -/
theorem everyStepGoesOn : Obligations.EveryStepGoesOn := by
  refine ⟨exec_total, fun s noFault => ?_⟩
  rcases step_cases s with ⟨f, latched, -⟩ | ⟨r, -, -, e⟩ | ⟨f, -, -, -, e⟩ | ⟨w, _, -, -, -, -, e⟩ |
    ⟨w, i, -, -, -, -, e⟩
  · cases noFault.symm.trans latched
  · exact ⟨_, e⟩
  · exact ⟨_, e⟩
  · exact ⟨_, e⟩
  · exact (exec_total i s).imp fun t run => e.trans run

/-! ### Who raises what (R222) -/

section Raising

variable {s t : State} {i : Instr} {f : Fault}

/-- A ranged instruction that faults has a byte to access, and names the lowest address beyond memory (R67). -/
theorem fault_of_withRange {body : State} {count : Nat} (h : s.withRange i count body = .next t)
    (noFault : body.fault = none) (latched : t.fault = some f) :
    count ≠ 0 ∧ f = .memoryFault (max s.I.toNat Config.memSize) s.pc (encode i) := by
  rcases s.withRange_cases i count body with ⟨-, e⟩ | ⟨⟨some_byte, -⟩, e⟩ <;> cases e.symm.trans h
  · cases noFault.symm.trans latched
  · exact ⟨some_byte, (Option.some.inj latched).symm⟩

/-- A key skip that faults names the value that is no key (R200). -/
theorem fault_of_skipIfKey {x : RegIdx} {wanted : Bool} (h : s.skipIfKey i x wanted = .next t)
    (noFault : s.fault = none) (latched : t.fault = some f) :
    f = .keyIndexFault (s.readV x) s.pc (encode i) := by
  unfold State.skipIfKey at h
  cases named : keyOfValue (s.readV x) <;> rw [named] at h <;> cases h
  · exact (Option.some.inj latched).symm
  · cases (noFault.symm.trans (s.skipIf_fault _).symm).trans latched

theorem fault_of_execRet (h : execRet s = .next t) (noFault : s.fault = none) (latched : t.fault = some f) :
    f = .stackUnderflow s.pc (encode .ret) := by
  rcases execRet_cases s with ⟨v, n, -, -, -, e⟩ | ⟨-, e⟩ <;> cases e.symm.trans h
  · cases noFault.symm.trans latched
  · exact (Option.some.inj latched).symm

theorem fault_of_execCall {nnn : Addr12} (h : execCall nnn s = .next t) (noFault : s.fault = none)
    (latched : t.fault = some f) : f = .stackOverflow s.pc (encode (.call nnn)) := by
  rcases execCall_cases nnn s with ⟨_, n, -, e⟩ | ⟨-, e⟩ <;> cases e.symm.trans h
  · cases noFault.symm.trans latched
  · exact (Option.some.inj latched).symm

end Raising

/-- Settles O12: the fault of each instruction that can raise one; the latch of every other is as before. -/
theorem whoRaisesWhat : Obligations.WhoRaisesWhat := by
  intro i s t f noFault h latched
  cases i with
  | ret => exact .inl ⟨rfl, fault_of_execRet h noFault latched⟩
  | call nnn => exact .inr (.inl ⟨nnn, rfl, fault_of_execCall h noFault latched⟩)
  | drw x y n =>
    obtain ⟨some_row, e⟩ := fault_of_withRange h noFault latched
    exact .inr (.inr (.inl ⟨x, y, n, rfl, fun zero => some_row (congrArg BitVec.toNat zero), e⟩))
  | ldBVx x =>
    exact .inr (.inr (.inr (.inl ⟨x, .inl rfl, (fault_of_withRange h noFault latched).2⟩)))
  | storeRegs x =>
    exact .inr (.inr (.inr (.inl ⟨x, .inr (.inl rfl), (fault_of_withRange h noFault latched).2⟩)))
  | loadRegs x =>
    have bodyOk := (s.loadFromI_fault x).trans noFault
    exact .inr (.inr (.inr (.inl ⟨x, .inr (.inr rfl), (fault_of_withRange h bodyOk latched).2⟩)))
  | skp x => exact .inr (.inr (.inr (.inr (.inl ⟨x, .inl rfl, fault_of_skipIfKey h noFault latched⟩))))
  | sknp x => exact .inr (.inr (.inr (.inr (.inl ⟨x, .inr rfl, fault_of_skipIfKey h noFault latched⟩))))
  | sys nnn =>
    cases h
    exact .inr (.inr (.inr (.inr (.inr ⟨nnn, rfl, (Option.some.inj latched).symm⟩))))
  | _ =>
    have kept : t.fault = s.fault := (exec_frame h).unchanged .fault (by simp [mayWrite])
    cases (kept.trans noFault).symm.trans latched

/-- The record of a fault an instruction raises holds the instruction's word (R221). -/
theorem word_of_exec_fault {i : Instr} {s t : State} {f : Fault} (noFault : s.fault = none) (h : exec i s = .next t)
    (latched : t.fault = some f) : f.word = some (encode i) := by
  obtain ⟨-, rfl⟩ | ⟨_, -, rfl⟩ | ⟨_, _, _, -, -, rfl⟩ | ⟨_, -, rfl⟩ | ⟨_, -, rfl⟩ | ⟨_, -, rfl⟩ :=
    whoRaisesWhat i s t f noFault h latched <;> rfl

/-! ### Faults are precise (R224) -/

/-- A failed fetch names `pc`, and no word (R221). -/
theorem pc_word_of_fetch_error {s : State} {f : Fault} (fetch : s.fetch = .error f) : f.pc = s.pc ∧ f.word = none := by
  rcases s.fetch_cases with ⟨-, e⟩ | ⟨-, -, e⟩ | ⟨-, e⟩ <;> cases e.symm.trans fetch <;> exact ⟨rfl, rfl⟩

/-- An instruction that faults has changed the latch alone, and the record names `pc`. -/
theorem latch_alone_of_exec_fault {i : Instr} {s t : State} {f : Fault} (noFault : s.fault = none)
    (h : exec i s = .next t) (latched : t.fault = some f) : t = { s with fault := some f } ∧ f.pc = s.pc := by
  rcases exec_next_cases h with ⟨g, at_pc, -, rfl⟩ | c
  · cases latched
    exact ⟨rfl, at_pc⟩
  · cases (c.fault.trans noFault).symm.trans latched

/-- Settles O11: a step faults in its fetch, in its decoding or in an instruction, whose word is the one fetched. -/
theorem faultsArePrecise : Obligations.FaultsArePrecise := by
  intro s t f noFault h latched
  have event : stepEvent s = (t, .fault f) := by
    obtain ⟨-, -, -, -, report⟩ := stepContract
    exact (report s t h).2 f latched
  rcases step_cases s with ⟨g, faulted, -⟩ | ⟨r, -, -, e⟩ | ⟨g, -, -, fetch, e⟩ | ⟨w, _, -, -, fetch, -, e⟩ |
    ⟨w, i, -, -, fetch, decode, e⟩
  · cases noFault.symm.trans faulted
  · cases e.symm.trans h
    cases ((waitScan_fault s r).trans noFault).symm.trans latched
  · cases e.symm.trans h
    cases latched
    obtain ⟨at_pc, no_word⟩ := pc_word_of_fetch_error fetch
    exact ⟨rfl, at_pc, event, .inl ⟨fetch, no_word⟩⟩
  · cases e.symm.trans h
    cases latched
    exact ⟨rfl, rfl, event, .inr ⟨w, fetch, rfl⟩⟩
  · have run := e.symm.trans h
    obtain ⟨only, at_pc⟩ := latch_alone_of_exec_fault noFault run latched
    obtain ⟨-, word⟩ := encodeOfDecode w i decode
    exact ⟨only, at_pc, event, .inr ⟨w, fetch, word ▸ word_of_exec_fault noFault run latched⟩⟩

/-! ### Timers and keys are only polled (R28, R29, R230) -/

/-- The instructions that read or write a timer or read a key (R35). -/
def usesInputs : Instr → Bool
  | .ldVxDT _ | .ldDTVx _ | .ldSTVx _ | .skp _ | .sknp _ => true
  | _ => false

/-- `s` with its timers and its keypad each passed through a function: `id` leaves one as it is, a constant function gives it
any other value. -/
def withInputs (dt st : Byte → Byte) (keys : Vector Bool Config.nkeys → Vector Bool Config.nkeys) (s : State) : State :=
  { s with DT := dt s.DT, ST := st s.ST, key := keys s.key }

/-- Both answers are next states, the second being the first with other timers and keys. -/
def Mirrors (g : State → State) (r r' : Result) : Prop := ∃ t, r = .next t ∧ r' = .next (g t)

theorem Mirrors.onlyChanges {g : State → State} {r r' : Result} {parts : List Part} (h : Mirrors g r r')
    (frame : ∀ t, OnlyChanges parts t (g t)) : ∃ t u, r = .next t ∧ r' = .next u ∧ OnlyChanges parts t u :=
  let ⟨t, run, run'⟩ := h
  ⟨t, g t, run, run', frame t⟩

section Inputs

variable (dt st : Byte → Byte) (keys : Vector Bool Config.nkeys → Vector Bool Config.nkeys) (s : State)

theorem skipIf_withInputs (taken : Bool) :
    (withInputs dt st keys s).skipIf taken = withInputs dt st keys (s.skipIf taken) := by cases taken <;> rfl

/-- The load loop of `Fx65` writes registers alone, so it sees no input (R175). -/
theorem foldl_writeV_withInputs (l : List RegIdx) (b : RegIdx → Byte) :
    l.foldl (fun t r => t.writeV r (b r)) (withInputs dt st keys s) =
      withInputs dt st keys (l.foldl (fun t r => t.writeV r (b r)) s) := by
  induction l generalizing s with
  | nil => rfl
  | cons r l ih => exact ih (s.writeV r (b r))

theorem withRange_mirrors (i : Instr) (count : Nat) (body : State) :
    Mirrors (withInputs dt st keys) (s.withRange i count body)
      ((withInputs dt st keys s).withRange i count (withInputs dt st keys body)) := by
  rcases s.withRange_cases i count body with ⟨fits, e⟩ | ⟨⟨some_byte, out⟩, e⟩
  · exact ⟨_, e, State.withRange_ok (s := withInputs dt st keys s) fits i _⟩
  · exact ⟨_, e, State.withRange_out (s := withInputs dt st keys s) some_byte out i _⟩

theorem pop_withInputs :
    (withInputs dt st keys s).pop = s.pop.map (Prod.map id (withInputs dt st keys)) := by
  by_cases live : 0 < s.sp.val <;> simp [State.pop, withInputs, live]

theorem push_withInputs (v : Word) :
    (withInputs dt st keys s).push v = (s.push v).map (withInputs dt st keys) := by
  by_cases room : s.sp.val < Config.stackCapacity <;> simp [State.push, withInputs, room]

theorem execRet_mirrors : Mirrors (withInputs dt st keys) (execRet s) (execRet (withInputs dt st keys s)) := by
  unfold execRet
  rw [pop_withInputs]
  cases s.pop <;> exact ⟨_, rfl, rfl⟩

theorem execCall_mirrors (nnn : Addr12) :
    Mirrors (withInputs dt st keys) (execCall nnn s) (execCall nnn (withInputs dt st keys s)) := by
  have returnAddress : (withInputs dt st keys s).nextPc = s.nextPc := rfl
  unfold execCall
  rw [returnAddress, push_withInputs]
  cases s.push s.nextPc <;> exact ⟨_, rfl, rfl⟩

/-- No instruction sees an input it neither reads nor writes. -/
theorem exec_mirrors {i : Instr} (blind : usesInputs i = false) :
    Mirrors (withInputs dt st keys) (exec i s) (exec i (withInputs dt st keys s)) := by
  cases i with
  | ldVxDT | ldDTVx | ldSTVx | skp | sknp => cases blind
  | ret => exact execRet_mirrors dt st keys s
  | call nnn => exact execCall_mirrors dt st keys s nnn
  | seImm | sneImm | seReg | sneReg => exact ⟨_, rfl, congrArg _ (skipIf_withInputs dt st keys s _)⟩
  | drw | ldBVx | storeRegs => exact withRange_mirrors dt st keys s _ _ _
  | loadRegs x =>
    have body : (((withInputs dt st keys s).loadFromI x).advanceI x).advance =
        withInputs dt st keys ((s.loadFromI x).advanceI x).advance :=
      congrArg (fun t : State => (t.advanceI x).advance) (foldl_writeV_withInputs dt st keys s _ _)
    have mirrors := withRange_mirrors dt st keys s (.loadRegs x) (regCount x) ((s.loadFromI x).advanceI x).advance
    rwa [← body] at mirrors
  | _ => exact ⟨_, rfl, rfl⟩

/-- A key skip reads the keys, and no timer. -/
theorem skipIfKey_mirrors (i : Instr) (x : RegIdx) (wanted : Bool) :
    Mirrors (withInputs dt st id) (s.skipIfKey i x wanted) ((withInputs dt st id s).skipIfKey i x wanted) := by
  have value : (withInputs dt st id s).readV x = s.readV x := rfl
  unfold State.skipIfKey
  rw [value]
  cases keyOfValue (s.readV x) with
  | none => exact ⟨_, rfl, rfl⟩
  | some k => exact ⟨_, rfl, congrArg _ (skipIf_withInputs dt st id s _)⟩

end Inputs

/-! Two more frame rules, of the parts that host events write: the keypad, and `dirty` alone (R243, R244). -/

theorem Frame.setKey {parts : List Part} {s t : State} (h : Frame parts s t) (keys : Vector Bool Config.nkeys)
    (named : .key ∈ parts := by simp) : Frame parts s { t with key := keys } := h.andThen named

theorem Frame.setDirty {parts : List Part} {s t : State} (h : Frame parts s t) (b : Bool)
    (named : .dirty ∈ parts := by simp) : Frame parts s { t with dirty := b } := h.andThen named

theorem withTimers_frame (d e : Byte) (t : State) :
    OnlyChanges [.DT, .ST] t (withInputs (fun _ => d) (fun _ => e) id t) :=
  (((Frame.refl _ t).setDT d).setST e).unchanged

theorem withKeys_frame (pressed : Vector Bool Config.nkeys) (t : State) :
    OnlyChanges [.key] t (withInputs id id (fun _ => pressed) t) :=
  ((Frame.refl _ t).setKey pressed).unchanged

/-- Settles O49: what uses no input mirrors any change of the inputs; of the rest the key skips mirror a change of the
timers, the timer copies one of the keys, and a timer set ends in states that differ in the other timer at most. -/
theorem inputsAreOnlyPolled : Obligations.InputsAreOnlyPolled := by
  refine ⟨fun i s d e notRead => ?_, fun i s pressed notSkp notSknp => ?_⟩
  · have timers := withTimers_frame d e
    cases i with
    | ldVxDT x => exact absurd rfl (notRead x)
    | ldDTVx x => exact ⟨_, _, rfl, rfl, withTimers_frame (s.readV x) e _⟩
    | ldSTVx x => exact ⟨_, _, rfl, rfl, withTimers_frame d (s.readV x) _⟩
    | skp x => exact (skipIfKey_mirrors _ _ s (.skp x) x true).onlyChanges timers
    | sknp x => exact (skipIfKey_mirrors _ _ s (.sknp x) x false).onlyChanges timers
    | _ => exact (exec_mirrors _ _ _ s rfl).onlyChanges timers
  · have keypad := withKeys_frame pressed
    cases i with
    | skp x => exact absurd rfl (notSkp x)
    | sknp x => exact absurd rfl (notSknp x)
    | ldVxDT | ldDTVx | ldSTVx => exact ⟨_, _, rfl, rfl, keypad _⟩
    | _ => exact (exec_mirrors _ _ _ s rfl).onlyChanges keypad

/-! ### Ticks, keys and reads (R236 to R246) -/

theorem toNat_countDown (t : Byte) : (countDown t).toNat = t.toNat - 1 := by
  unfold countDown
  split
  · next zero => subst zero; rfl
  · bv_omega

/-- Settles O42: each timer counts down, and `tone_stop` is the test for 1. -/
theorem tickCountsDown : Obligations.TickCountsDown := fun s =>
  ⟨toNat_countDown s.DT, toNat_countDown s.ST, beq_iff_eq.trans (BitVec.toNat_inj (y := 1#8)).symm, decide_eq_true_iff,
    withTimers_frame (countDown s.DT) (countDown s.ST) s⟩

theorem readKey_keySet (s : State) (j k : KeyIdx) (b : Bool) :
    (keySet k b s).readKey j = if j = k then b else s.readKey j := by
  simp only [State.readKey, keySet, Vector.getElem_set, BitVec.toNat_inj, eq_comm (a := k)]

/-- The rows of the grid one after the other (R245). -/
theorem readDisplay_eq_flatten (s : State) : readDisplay s = s.disp.flatten.toList := by
  change List.flatMap Vector.toList s.disp.toArray.toList = (s.disp.toArray.map Vector.toArray).flatten.toList
  rw [Array.toList_flatten, Array.toList_map, List.map_map, List.flatMap_def]
  rfl

/-- Cell `(r, c)` is read at position `64 r + c`, whose quotient by the width is the row and whose remainder the column. -/
theorem getElem?_readDisplay (s : State) (r : Fin Config.displayHeight) (c : Fin Config.displayWidth) :
    (readDisplay s)[r.val * Config.displayWidth + c.val]? = some (Grid.cell s.disp r c) := by
  have row : (r.val * Config.displayWidth + c.val) / Config.displayWidth = r.val := by
    rw [Nat.mul_comm, Nat.mul_add_div (Nat.zero_lt_of_lt c.isLt), Nat.div_eq_of_lt c.isLt, Nat.add_zero]
  have col : (r.val * Config.displayWidth + c.val) % Config.displayWidth = c.val := by
    rw [Nat.mul_comm, Nat.mul_add_mod, Nat.mod_eq_of_lt c.isLt]
  have inside : r.val * Config.displayWidth + c.val < Config.displayHeight * Config.displayWidth := by
    rw [← Nat.div_lt_iff_lt_mul (Nat.zero_lt_of_lt c.isLt), row]
    exact r.isLt
  rw [readDisplay_eq_flatten, Vector.getElem?_toList, Vector.getElem?_flatten, dif_pos inside]
  simp only [row, col, Grid.cell]

/-- Settles O43: one latch set, and the rows of the grid one after the other. -/
theorem keySetAndDisplayRead : Obligations.KeySetAndDisplayRead := by
  refine fun s => ⟨fun k b => ⟨?_, fun j other => ?_, ?_⟩, ⟨?_, getElem?_readDisplay s⟩, rfl⟩
  · rw [readKey_keySet, if_pos rfl]
  · rw [readKey_keySet, if_neg other]
  · exact ((Frame.refl [.key] s).setKey _).unchanged
  · rw [readDisplay_eq_flatten, Vector.length_toList]

/-- Settles O44: `dirty` alone is written, and the reads give what they name. -/
theorem acknowledgeAndReads : Obligations.AcknowledgeAndReads := fun s =>
  ⟨rfl, rfl, ((Frame.refl [.dirty] s).setDirty false).unchanged, rfl, rfl⟩

/-! ### A faulted machine (R225) -/

/-- A step of a faulted machine returns the fault again and changes nothing. -/
theorem stepEvent_of_latched {s : State} {f : Fault} (latched : s.fault = some f) : stepEvent s = (s, .fault f) := by
  rw [stepEvent, step_of_latched latched]

/-- Every event but `reset` keeps a latched fault. -/
theorem fault_eventEffect {s : State} {f : Fault} (latched : s.fault = some f) {e : Event} (other : e ≠ .reset) :
    (eventEffect e s).1.fault = some f := by
  cases e with
  | reset => exact absurd rfl other
  | step => exact (congrArg (State.fault ∘ Prod.fst) (stepEvent_of_latched latched)).trans latched
  | _ => exact latched

/-- Settles O13: the events read nothing off the latch but a step, which returns it. -/
theorem faultedMachineIsInert : Obligations.FaultedMachineIsInert := by
  refine fun s f latched => ⟨stepEvent_of_latched latched, fun e cleared => ?_, rfl, toNat_countDown s.DT,
    toNat_countDown s.ST, fun k b => ?_, rfl, latched⟩
  · exact Classical.not_not.mp fun other => cleared (fault_eventEffect latched other)
  · rw [readKey_keySet, if_pos rfl]

/-! ### Events and sessions keep the invariant (R240, R247) -/

/-- Reset meets the invariant from any state: it keeps the draw counter alone, of which the invariant says nothing. -/
theorem invariant_resetEvent (s : State) : MachineInvariant (resetEvent s) :=
  let ⟨memory, stack, pc, waiting, fault⟩ := resetMeetsInvariant
  ⟨memory, stack, pc, waiting, fault⟩

/-- A step event leaves the step's next state, or the old one. -/
theorem stepEvent_cases (s : State) : (stepEvent s).1 = s ∨ step s = .next (stepEvent s).1 := by
  unfold stepEvent
  cases step s with
  | next t => exact .inr rfl
  | fault | refused => exact .inl rfl

theorem load_keeps_wf {s : State} (wf : s.mem.wf = true) (image : List Byte) : (load image s).mem.wf = true :=
  Memory.writeBytes_wf wf (Nat.add_le_of_le_sub' (by decide) (List.length_take_le _ image))

theorem eventEffect_keeps_invariant (e : Event) {s : State} (inv : MachineInvariant s) :
    MachineInvariant (eventEffect e s).1 := by
  cases e with
  | reset => exact invariant_resetEvent s
  | load image => exact ⟨load_keeps_wf inv.memory image, inv.stack, inv.pc, inv.waiting, inv.fault⟩
  | step =>
    rcases stepEvent_cases s with e | e
    · exact e.symm ▸ inv
    · exact stepKeepsInvariant s _ inv e
  | tick | keySet | dirtyAck => exact ⟨inv.memory, inv.stack, inv.pc, inv.waiting, inv.fault⟩
  | readDisplay | readTone | readFault => exact inv

theorem session_keeps_invariant {es : List Event} {p q : Phase} {s t : State} {rs : List Response}
    (run : session es p s = some (q, t, rs)) (inv : MachineInvariant s) : MachineInvariant t := by
  induction es generalizing p s rs with
  | nil => cases run; exact inv
  | cons e es ih =>
    obtain ⟨p', rs', -, rest, -⟩ := session_cons_eq_some run
    exact ih rest (eventEffect_keeps_invariant e inv)

/-- Before the first `reset` only `reset` has a move (R247). -/
theorem eq_reset_of_after_unborn {e : Event} {q : Phase} (h : Phase.unborn.after e = some q) : e = .reset := by
  cases e with
  | reset => rfl
  | _ => cases h

/-- Settles O52: each event keeps the invariant, so a session does by induction; from the start the first event is a
reset, which establishes it. -/
theorem sessionKeepsInvariant : Obligations.SessionKeepsInvariant := by
  refine ⟨fun e s inv => eventEffect_keeps_invariant e inv, fun es p q s t rs => session_keeps_invariant,
    fun e es q s t rs run => ?_⟩
  obtain ⟨p, rs', move, rest, -⟩ := session_cons_eq_some run
  obtain rfl := eq_reset_of_after_unborn move
  exact session_keeps_invariant rest (invariant_resetEvent s)

/-! ### The host's duties (R247, D24) -/

/-- Which event has a move in which phase. -/
theorem isSome_after_iff {p : Phase} {e : Event} : (p.after e).isSome = true ↔
    e = .reset ∨ (p = .fresh ∧ ∃ image, e = .load image) ∨ (p ≠ .unborn ∧ ∀ image, e ≠ .load image) := by
  cases e with
  | load image => cases p <;> simp [Phase.after]
  | _ => cases p <;> simp [Phase.after]

/-- Where a move leads. -/
theorem phase_of_after {p q : Phase} {e : Event} (h : p.after e = some q) :
    (e = .reset → q = .fresh) ∧ (e = .step → q = .running) ∧ (e ≠ .reset → e ≠ .step → q = p) := by
  cases e with
  | reset => cases h; simp
  | _ => cases p <;> cases h <;> simp

/-- Settles O53: the phase alone decides whether an event has a move. -/
theorem hostDutiesGateMoves : Obligations.HostDutiesGateMoves := by
  refine fun p e s => ⟨?_, fun q t r move => ?_⟩
  · rw [perform, Option.isSome_map]
    exact isSome_after_iff
  · obtain ⟨after, effect⟩ := perform_eq_some_iff.mp move
    exact ⟨effect.symm, phase_of_after after⟩

/-- A session has a run exactly when the host keeps its duties, from any phase. -/
theorem isSome_session (es : List Event) (p : Phase) (s : State) : (session es p s).isSome = legalFrom p es := by
  induction es generalizing p s with
  | nil => rfl
  | cons e es ih =>
    cases after : p.after e with
    | none => rw [session_cons_none after, legalFrom, after]; rfl
    | some q => rw [session_cons_some after, Option.isSome_map, ih, legalFrom, after]

/-- A `reset` has come, and no `step` since. -/
def ResetSinceStep (es : List Event) : Prop := ∃ before since, es = before ++ .reset :: since ∧ .step ∉ since

theorem resetSinceStep_cons_iff {e : Event} {es : List Event} :
    ResetSinceStep (e :: es) ↔ (e = .reset ∧ .step ∉ es) ∨ ResetSinceStep es := by
  constructor
  · rintro ⟨before, since, eq, noStep⟩
    cases before with
    | nil => cases eq; exact .inl ⟨rfl, noStep⟩
    | cons e' before => cases eq; exact .inr ⟨before, since, rfl, noStep⟩
  · rintro (⟨rfl, noStep⟩ | ⟨before, since, rfl, noStep⟩)
    · exact ⟨[], es, rfl, noStep⟩
    · exact ⟨e :: before, since, rfl, noStep⟩

/-- A move leads to the time before the first step exactly when it is a reset, or starts there and is no step. -/
theorem after_fresh_iff {p q : Phase} {e : Event} (h : p.after e = some q) :
    q = .fresh ↔ e = .reset ∨ (p = .fresh ∧ e ≠ .step) := by
  obtain ⟨reset, step, other⟩ := phase_of_after h
  by_cases isReset : e = .reset
  · simp [isReset, reset isReset]
  · by_cases isStep : e = .step
    · simp [isStep, step isStep]
    · simp [isReset, isStep, other isReset isStep]

/-- A session ends before the first step exactly when a reset has come and no step since, or it started there and has no
step. -/
theorem session_fresh_iff {es : List Event} {p q : Phase} {s t : State} {rs : List Response}
    (run : session es p s = some (q, t, rs)) :
    q = .fresh ↔ (p = .fresh ∧ .step ∉ es) ∨ ResetSinceStep es := by
  induction es generalizing p s rs with
  | nil => cases run; simp [ResetSinceStep]
  | cons e es ih =>
    obtain ⟨p', rs', move, rest, -⟩ := session_cons_eq_some run
    rw [ih rest, after_fresh_iff move, resetSinceStep_cons_iff, List.mem_cons]
    tauto

/-- A session can go on with a `load` exactly when it ends before the first step. -/
theorem isSome_session_load (es : List Event) (image : List Byte) (p : Phase) (s : State) :
    (session (es ++ [.load image]) p s).isSome = true ↔ ∃ t rs, session es p s = some (.fresh, t, rs) := by
  rw [session_append]
  cases session es p s with
  | none => simp
  | some out =>
    obtain ⟨q, t, rs⟩ := out
    cases q <;> simp [isSome_session, legalFrom, Phase.after]

/-- Settles O54: a `load` goes on from the phase before the first step alone, and how a session comes to that phase is an
induction over its events. -/
theorem loadOnlyBeforeFirstStep : Obligations.LoadOnlyBeforeFirstStep := by
  refine fun es s => ⟨fun image => ?_, fun hasRun => ?_, isSome_session es .unborn s⟩
  · rw [isSome_session_load]
    constructor
    · rintro ⟨t, rs, run⟩
      exact ⟨by rw [run]; rfl, ((session_fresh_iff run).mp rfl).resolve_left (by simp)⟩
    · rintro ⟨hasRun, reset⟩
      obtain ⟨⟨q, t, rs⟩, run⟩ := Option.isSome_iff_exists.mp hasRun
      obtain rfl := (session_fresh_iff run).mpr (.inr reset)
      exact ⟨t, rs, run⟩
  · cases es with
    | nil => exact .inl rfl
    | cons e rest =>
      obtain ⟨⟨q, t, rs⟩, run⟩ := Option.isSome_iff_exists.mp hasRun
      obtain ⟨p, rs', move, -⟩ := session_cons_eq_some run
      exact .inr ⟨rest, by rw [eq_reset_of_after_unborn move]⟩

end Sys2Proof.Proofs
end

section
/-! SUPPORT. Proofs of the statements about loading a program and about its end (`70_reset_and_hazards.md`): a load is one run
of bytes stored, and a jump to itself is a step that goes nowhere. -/

namespace Sys2Proof.Proofs

open Sys2Proof.Machine Sys2Proof.Claims

/-! ### Loading an image (R263) -/

/-- The bytes of an image that memory has room for, from `PROG_START` on (R263). -/
def loadedPart (image : List Byte) : List Byte := image.take (Config.memSize - Config.progStart)

theorem load_mem (image : List Byte) (s : State) :
    (load image s).mem = s.mem.writeBytes Config.progStart (loadedPart image) := rfl

theorem loadedPart_fits (image : List Byte) : Config.progStart + (loadedPart image).length ≤ Config.memSize :=
  Nat.add_le_of_le_sub' (by decide) (List.length_take_le _ image)

theorem getElem?_loadedPart {image : List Byte} {i : Nat} (inside : Config.progStart + i < Config.memSize) :
    (loadedPart image)[i]? = image[i]? :=
  List.getElem?_take_of_lt (Nat.lt_sub_iff_add_lt'.mpr inside)

/-- An address past the image, or past memory, is past the part loaded. -/
theorem loadedPart_ends_by {image : List Byte} {a : Nat}
    (past : Config.progStart + image.length ≤ a ∨ Config.memSize ≤ a) :
    Config.progStart + (loadedPart image).length ≤ a := by
  rcases past with pastImage | pastMemory
  · exact (Nat.add_le_add_left (List.length_take_le' _ image) _).trans pastImage
  · exact (loadedPart_fits image).trans pastMemory

theorem Frame.setMem {parts : List Part} {s t : State} (h : Frame parts s t) (m : Memory)
    (named : .mem ∈ parts := by simp) : Frame parts s { t with mem := m } := h.andThen named (mem := absurd rfl)

/-- Settles O45: the part of the image that fits is a run of bytes stored from `PROG_START` upward. -/
theorem loadPlacesImage : Obligations.LoadPlacesImage := by
  refine fun image s wf => ⟨fun i b byte inside => ?_, fun a outside => ?_, ((Frame.refl _ s).setMem _).unchanged⟩
  · obtain ⟨stored, value⟩ := List.getElem?_eq_some_iff.mp ((getElem?_loadedPart inside).trans byte)
    rw [load_mem, ← value]
    exact read_writeBytes_stored wf (loadedPart_fits image) stored
  · rw [load_mem]
    exact read_writeBytes_outside wf (loadedPart_fits image) (outside.imp_right loadedPart_ends_by)

/-! ### The end of a program (R268, D28) -/

/-- A fetch gives a word only where both of its bytes exist (R62). -/
theorem fetchable_of_fetch_ok {s : State} {w : Word} (fetch : s.fetch = .ok w) : fetchable s.pc = true := by
  rcases s.fetch_cases with ⟨-, error⟩ | ⟨-, -, error⟩ | ⟨inside, -⟩
  · cases error.symm.trans fetch
  · cases error.symm.trans fetch
  · exact inside

/-- Below 4096 an address is the operand of its own low 12 bits. -/
theorem addrOperand_setWidth {a : Word} (small : a.toNat < 4096) : addrOperand (a.setWidth 12) = a := by
  apply BitVec.eq_of_toNat_eq
  rw [toNat_addrOperand, BitVec.toNat_setWidth]
  exact Nat.mod_eq_of_lt small

/-- Below 4096 the word `0x1000 | a` is that of the jump to `a`. -/
theorem encode_jp_setWidth {a : Word} (small : a.toNat < 4096) : encode (.jp (a.setWidth 12)) = 0x1000 ||| a := by
  apply BitVec.eq_of_toNat_eq
  calc (encode (.jp (a.setWidth 12))).toNat
      = (1#4).toNat <<< 12 ||| (a.setWidth 12).toNat := BitVec.toNat_append ..
    _ = (0x1000#16).toNat ||| a.toNat := by rw [BitVec.toNat_setWidth, Nat.mod_eq_of_lt small]; rfl
    _ = (0x1000 ||| a).toNat := (BitVec.toNat_or ..).symm

/-- The step of a program that has ended goes nowhere: it jumps to where it is. -/
theorem step_of_ended {s : State} (ended : Ended s) : step s = .next s := by
  obtain ⟨ready, fetch⟩ := ended
  have small : s.pc.toNat < 4096 := Nat.lt_of_succ_lt (fetchable_iff.mp (fetchable_of_fetch_ok fetch)).2
  have decode : decodeWord (0x1000 ||| s.pc) = .ok (.jp (s.pc.setWidth 12)) :=
    decodeWord_of_encode rfl (encode_jp_setWidth small)
  calc step s
      = exec (.jp (s.pc.setWidth 12)) s := (step_of_fetch_ok ready fetch).trans (runWord_of_decode_ok decode)
    _ = .next (s.jump (addrOperand (s.pc.setWidth 12))) := rfl
    _ = .next s := by rw [addrOperand_setWidth small]; rfl

/-- Settles O55: a step that goes nowhere, taken any number of times. -/
theorem endedStaysEnded : Obligations.EndedStaysEnded := fun k _ ended =>
  safeRun_of_step_self ended.1.noFault (step_of_ended ended) k

end Sys2Proof.Proofs
end
